-- ==== Sys2Proof/Word.lean ====
section
/-! DEFINITION. The word types of CORE (spec/00_scope.md rules R7, R9, R10): every value is an unsigned bit vector of
the width stated, and arithmetic wraps. -/

namespace Sys2Proof

/-- One byte of the output buffer or of an emitted instruction (R40). -/
abbrev Byte := BitVec 8

/-- A buffer address, the cursor, a jump target: 64 bits (R8, R40). -/
abbrev Addr := BitVec 64

/-- The 64-bit content of one operand slot: a descriptor, an immediate or a target (R7, R152). -/
abbrev Desc := BitVec 64

/-- A 12-bit base or index code of a memory descriptor (R7, R70). -/
abbrev Code := BitVec 12

end Sys2Proof
end

