-- ==== Sys2Proof/Config.lean ====
section
/-! DEFINITION. What is fixed for one built block: the shape of the per-mnemonic record and of the parameters
(spec/00_scope.md rules R8, R11), the caller's buffer regions (R47, R52, R316), `MAXLEN`, and the free values, which are
opaque constants that nothing in Lean can evaluate. -/

namespace Sys2Proof

/-- The mandatory-prefix selector of a record (R11, R61). -/
inductive Mp where
  | none | p66 | pF2 | pF3
deriving DecidableEq, Repr

/-- The escape selector of a record (R11, R65). -/
inductive Esc where
  | none | e0F | e0F38 | e0F3A
deriving DecidableEq, Repr

/-- The segment-override selector of a request (R12, R27). -/
inductive Seg where
  | none | es | cs | ss | ds | fs | gs
deriving DecidableEq, Repr

/-- The per-mnemonic record (R11). `fmt` is the number of a format tag (R73), 8 bits wide (DESIGN CHOICE, log 6: the spec
gives no width). `immsz` is any number, since rule R151 says what a width outside {1, 2, 4, 8} does (log 7). -/
structure Record where
  fmt   : BitVec 8
  mp    : Mp
  esc   : Esc
  w     : Bool
  opc1  : Byte
  opc2  : Option Byte
  regc  : Option (BitVec 3)
  immsz : Nat
  mask8 : BitVec 4
deriving DecidableEq, Repr

/-- The configuration a block is built with (R8, R21): the table as a finite list of pairs, the first pair for a mnemonic
counting, and the two sentinels. No step writes it. DESIGN CHOICE (log 1): it rides in State, because the step function's
type has no other argument. -/
structure Params where
  table       : List (Nat × Record)
  ripSentinel : Code
  jmpSentinel : Addr
deriving DecidableEq, Repr

/-- The constraints decision D18 puts on `RIP_SENTINEL`: not 0, not a GPL code, not a GPH code. -/
abbrev Params.wf (p : Params) : Prop :=
  p.ripSentinel ≠ 0 ∧ ¬ (0x100 ≤ p.ripSentinel.toNat ∧ p.ripSentinel.toNat ≤ 0x10F) ∧
    ¬ (0x204 ≤ p.ripSentinel.toNat ∧ p.ripSentinel.toNat ≤ 0x207)

/-- A run of buffer addresses. -/
structure Region where
  base : Nat
  size : Nat
deriving DecidableEq, Repr

/-- What surrounds the block at this moment: the writable part of the caller's buffer (R47), the regions concurrent
transactions or other agents use (R52), and the regions that hold the table or requests yet to be read (R316). -/
structure Env where
  writable : List Region
  busy     : List Region
  inputs   : List Region
deriving DecidableEq, Repr

/-- `MAXLEN`, the largest number of bytes one transaction can emit (R8, R75). -/
def Config.maxLen : Nat := 22

/-- FREE VALUE (log 9): a buffer byte after a failed transaction (R43). Uninterpreted. -/
opaque Config.freeByte : Nat → Byte

/-- FREE VALUE (log 24): the response flag `ok` from a transaction's start to its end (R23). Uninterpreted. -/
opaque Config.freeBit : Nat → Bool

end Sys2Proof
end

