-- ==== Sys2Proof/Syntax.lean ====
section
/-! DEFINITION. The syntax: one constructor of `Instr` per row of spec/opcode_table.json, the request (R12), and the words
that stand for rows (`RowWord`). -/

namespace Sys2Proof

/-- A request (R12, R77): a mnemonic identifier (a number: DESIGN CHOICE, log 5), the 32-bit-addressing flag, the
segment-override selector and four operand slots. An unused slot holds 0. -/
structure Req where
  mnem   : Nat
  addr32 : Bool
  seg    : Seg
  op0    : Desc
  op1    : Desc
  op2    : Desc
  op3    : Desc
deriving DecidableEq, Repr

/-- The rows of spec/opcode_table.json. A format tag (R73) has no operands of its own: it works on the request and the
record in the working registers. An emitted-byte row carries the fields of its bit pattern. A descriptor row carries the
fields of the descriptor. -/
inductive Instr where
  /-- FMT_NP, tag 0 (R240). -/
  | fmtNp
  /-- FMT_M, tag 1 (R241). -/
  | fmtM
  /-- FMT_MI, tag 2 (R242). -/
  | fmtMi
  /-- FMT_MR, tag 3 (R243). -/
  | fmtMr
  /-- FMT_RM, tag 4 (R244). -/
  | fmtRm
  /-- FMT_MRI, tag 5 (R245). -/
  | fmtMri
  /-- FMT_RMI, tag 6 (R246). -/
  | fmtRmi
  /-- FMT_I, tag 7 (R247). -/
  | fmtI
  /-- FMT_AI, tag 8 (R248). -/
  | fmtAi
  /-- FMT_O, tag 9 (R249). -/
  | fmtO
  /-- FMT_OI, tag 10 (R250). -/
  | fmtOi
  /-- FMT_AO, tag 11 (R251). -/
  | fmtAo
  /-- FMT_D, tag 12 (R252). -/
  | fmtD
  /-- FMT_UNREALIZED, any tag of 13 and above (R232). -/
  | fmtUnrealized (tag : BitVec 8)
  /-- PREFIX_ADDR32, 67 (R62). -/
  | prefixAddr32
  /-- PREFIX_SEG_ES, 26 (R63). -/
  | prefixSegEs
  /-- PREFIX_SEG_CS, 2E (R63). -/
  | prefixSegCs
  /-- PREFIX_SEG_SS, 36 (R63). -/
  | prefixSegSs
  /-- PREFIX_SEG_DS, 3E (R63). -/
  | prefixSegDs
  /-- PREFIX_SEG_FS, 64 (R63). -/
  | prefixSegFs
  /-- PREFIX_SEG_GS, 65 (R63). -/
  | prefixSegGs
  /-- PREFIX_MP_66 (R61). -/
  | prefixMp66
  /-- PREFIX_MP_F2 (R61). -/
  | prefixMpF2
  /-- PREFIX_MP_F3 (R61). -/
  | prefixMpF3
  /-- REX, 0100WRXB (R64). -/
  | rex (w r x b : Bool)
  /-- ESC_0F (R65). -/
  | esc0F
  /-- ESC_38 (R65). -/
  | esc38
  /-- ESC_3A (R65). -/
  | esc3A
  /-- OPC1, oooooooo (R132). -/
  | opc1 (o : Byte)
  /-- OPC1_REG, ooooorrr (R173). -/
  | opc1Reg (o : BitVec 5) (r : BitVec 3)
  /-- OPC2, pppppppp (R134). -/
  | opc2 (p : Byte)
  /-- MODRM, mmrrrbbb (R66). -/
  | modrm (mod : BitVec 2) (reg rm : BitVec 3)
  /-- SIB, ssiiibbb (R67). -/
  | sib (scale : BitVec 2) (index base : BitVec 3)
  /-- DISP8 (R68). -/
  | disp8 (d : Byte)
  /-- DISP32 (R68). -/
  | disp32 (d : BitVec 32)
  /-- IMM of `width` bytes; `v` is the 64-bit value that the bytes hold sign-extended (R69). -/
  | imm (width : Nat) (v : BitVec 64)
  /-- OPERAND_REG: bits 62:4 and the register code 3:0 of a register descriptor (R71). -/
  | operandReg (cls : BitVec 59) (code : BitVec 4)
  /-- OPERAND_MEM: bits 62:60, scale, index, base and displacement of a memory descriptor (R70). -/
  | operandMem (unused : BitVec 3) (scale : BitVec 4) (index base : Code) (disp : BitVec 32)
deriving DecidableEq, Repr

/-- The fields of an emitted instruction, in the order of rule R60, with the two forms of the last opcode byte apart
(OPC1_REG has bits of its own, R79), and the operand slot of a request. -/
inductive Slot where
  | addr32 | seg | mp | rex | esc | esc2 | opc1 | opcReg | opc2 | modrm | sib | disp | imm | operand
deriving DecidableEq, Repr

/-- A word that stands for a row of the opcode table: a format tag (R73), or the bytes of one field, least significant
byte first (R44). -/
inductive RowWord where
  | tag (t : Byte)
  | field (slot : Slot) (bytes : List Byte)
deriving DecidableEq, Repr

end Sys2Proof
end

