-- ==== Sys2Proof/WellFormed.lean ====
section
/-! DEFINITION. When a row's term is one the encodings admit. Two rows have a check: an unrealized tag is 13 or above
(R73), and an immediate field has a legal width and a value that fits it (R69, R150). Every other row admits every value
of its fields. -/

namespace Sys2Proof

/-- The widths an immediate may have (R7, R151). -/
abbrev LegalWidth (w : Nat) : Prop := w = 1 ∨ w = 2 ∨ w = 4 ∨ w = 8

/-- A value lies in the signed range of `w` bytes: the second form of rule R150. -/
abbrev InSignedRange (v : BitVec 64) (w : Nat) : Prop :=
  -(2 ^ (8 * w - 1) : Int) ≤ v.toInt ∧ v.toInt ≤ 2 ^ (8 * w - 1) - 1

/-- The check, as a Bool. -/
def wellFormed (i : Instr) : Bool :=
  match i with
  | .fmtUnrealized t => decide (13 ≤ t.toNat)
  | .imm w v => decide (LegalWidth w ∧ InSignedRange v w)
  | .fmtNp | .fmtM | .fmtMi | .fmtMr | .fmtRm | .fmtMri | .fmtRmi | .fmtI | .fmtAi | .fmtO | .fmtOi | .fmtAo | .fmtD
  | .prefixAddr32 | .prefixSegEs | .prefixSegCs | .prefixSegSs | .prefixSegDs | .prefixSegFs | .prefixSegGs
  | .prefixMp66 | .prefixMpF2 | .prefixMpF3 | .rex _ _ _ _ | .esc0F | .esc38 | .esc3A | .opc1 _ | .opc1Reg _ _ | .opc2 _
  | .modrm _ _ _ | .sib _ _ _ | .disp8 _ | .disp32 _ | .operandReg _ _ | .operandMem _ _ _ _ _ => true

/-- The well-formed rows. -/
abbrev WellFormed (i : Instr) : Prop := wellFormed i = true

end Sys2Proof
end

