-- ==== Sys2Proof/Decode.lean ====
section
/-! DEFINITION. The byte layouts of spec/30_encoding.md and the decoder and encoder of the opcode table's rows. The layout
functions are the ones the machine emits with, so the encoder and the machine cannot drift apart unseen: the tests hold the
words against bit patterns written out from the spec. -/

namespace Sys2Proof

/-! ### Byte order (R10, R44) -/

/-- `le v n`: the n low bytes of `v`, least significant first (R10). -/
def le (v : BitVec 64) : Nat → List Byte
  | 0 => []
  | n + 1 => v.setWidth 8 :: le (v >>> 8) n

/-- The number a little-endian byte list holds. -/
def leValue : List Byte → BitVec 64
  | [] => 0
  | b :: bs => (leValue bs <<< 8) ||| b.setWidth 64

/-- `sext_64(v[8w-1:0])` (R10, R150). -/
def sextBytes (v : BitVec 64) (w : Nat) : BitVec 64 :=
  (v.setWidth (8 * w)).signExtend 64

/-! ### Field layouts (R61 to R67) -/

/-- A bit at position `k` of a byte. -/
def bitAt (b : Bool) (k : Nat) : Byte := (BitVec.ofBool b).setWidth 8 <<< k

/-- SEGBYTE (R63). PRESUMED by the spec (D20, log 19): the x86 values. -/
def segByte : Seg → List Byte
  | .none => []
  | .es => [0x26]
  | .cs => [0x2E]
  | .ss => [0x36]
  | .ds => [0x3E]
  | .fs => [0x64]
  | .gs => [0x65]

/-- The REX byte `0x40 | W<<3 | R<<2 | X<<1 | B` (R64). -/
def rexByteOf (w r x b : Bool) : Byte := 0x40 ||| bitAt w 3 ||| bitAt r 2 ||| bitAt x 1 ||| bitAt b 0

/-- The ModRM byte `mod<<6 | reg<<3 | rm` (R66). -/
def modrmByte (mod : BitVec 2) (reg rm : BitVec 3) : Byte :=
  (mod.setWidth 8 <<< 6) ||| (reg.setWidth 8 <<< 3) ||| rm.setWidth 8

/-- The SIB byte `scale<<6 | index<<3 | base` (R67). -/
def sibByte (scale : BitVec 2) (index base : BitVec 3) : Byte :=
  (scale.setWidth 8 <<< 6) ||| (index.setWidth 8 <<< 3) ||| base.setWidth 8

/-- A byte whose low 3 bits are replaced by `r`: `(b & 0xF8) | r` (R173, R79). -/
def patchLow3 (b : Byte) (r : BitVec 3) : Byte := (b &&& 0xF8) ||| r.setWidth 8

/-- The byte `ooooorrr` (R173). -/
def opcRegByte (o : BitVec 5) (r : BitVec 3) : Byte := patchLow3 (o.setWidth 8 <<< 3) r

/-- A register descriptor from its parts (R71): bit 63 is 0. -/
def descReg (cls : BitVec 59) (code : BitVec 4) : Desc := (cls.setWidth 64 <<< 4 ||| code.setWidth 64 : BitVec 64)

/-- A memory descriptor from its parts (R70): bit 63 is 1. -/
def descMem (unused : BitVec 3) (scale : BitVec 4) (index base : Code) (disp : BitVec 32) : Desc :=
  ((0x8000000000000000 : BitVec 64) ||| unused.setWidth 64 <<< 60 ||| scale.setWidth 64 <<< 56 |||
    index.setWidth 64 <<< 44 ||| base.setWidth 64 <<< 32 ||| disp.setWidth 64 : BitVec 64)

/-! ### Decode -/

/-- Why a word stands for no row. -/
inductive DecodeError where
  /-- The bytes of the field have the wrong number. -/
  | badLength (slot : Slot)
  /-- No row of this field has this byte. -/
  | notThisField (slot : Slot) (b : Byte)
deriving DecidableEq, Repr

/-- The format tags (R73): 0 to 12 by name, every other tag unrealized. -/
def decodeTag (t : Byte) : Instr :=
  match t.toNat with
  | 0 => .fmtNp
  | 1 => .fmtM
  | 2 => .fmtMi
  | 3 => .fmtMr
  | 4 => .fmtRm
  | 5 => .fmtMri
  | 6 => .fmtRmi
  | 7 => .fmtI
  | 8 => .fmtAi
  | 9 => .fmtO
  | 10 => .fmtOi
  | 11 => .fmtAo
  | 12 => .fmtD
  | _ => .fmtUnrealized t

/-- The one-byte fields (R61 to R67): which row of a field a byte is. -/
def decodeByte (slot : Slot) (b : Byte) : Except DecodeError Instr :=
  match slot with
  | .addr32 => if b = 0x67 then .ok .prefixAddr32 else .error (.notThisField slot b)
  | .seg =>
    if b = 0x26 then .ok .prefixSegEs
    else if b = 0x2E then .ok .prefixSegCs
    else if b = 0x36 then .ok .prefixSegSs
    else if b = 0x3E then .ok .prefixSegDs
    else if b = 0x64 then .ok .prefixSegFs
    else if b = 0x65 then .ok .prefixSegGs
    else .error (.notThisField slot b)
  | .mp =>
    if b = 0x66 then .ok .prefixMp66
    else if b = 0xF2 then .ok .prefixMpF2
    else if b = 0xF3 then .ok .prefixMpF3
    else .error (.notThisField slot b)
  | .rex =>
    if b.extractLsb' 4 4 = 4 then .ok (.rex (b.getLsbD 3) (b.getLsbD 2) (b.getLsbD 1) (b.getLsbD 0))
    else .error (.notThisField slot b)
  | .esc => if b = 0x0F then .ok .esc0F else .error (.notThisField slot b)
  | .esc2 =>
    if b = 0x38 then .ok .esc38
    else if b = 0x3A then .ok .esc3A
    else .error (.notThisField slot b)
  | .opc1 => .ok (.opc1 b)
  | .opcReg => .ok (.opc1Reg (b.extractLsb' 3 5) (b.extractLsb' 0 3))
  | .opc2 => .ok (.opc2 b)
  | .modrm => .ok (.modrm (b.extractLsb' 6 2) (b.extractLsb' 3 3) (b.extractLsb' 0 3))
  | .sib => .ok (.sib (b.extractLsb' 6 2) (b.extractLsb' 3 3) (b.extractLsb' 0 3))
  | .disp => .ok (.disp8 b)
  | .imm => .ok (.imm 1 (sextBytes (leValue [b]) 1))
  | .operand => .error (.badLength slot)

/-- An operand descriptor (R70, R71): bit 63 says which. -/
def decodeDesc (d : Desc) : Instr :=
  if d.getLsbD 63 then
    .operandMem (d.extractLsb' 60 3) (d.extractLsb' 56 4) (d.extractLsb' 44 12) (d.extractLsb' 32 12) (d.extractLsb' 0 32)
  else .operandReg (d.extractLsb' 4 59) (d.extractLsb' 0 4)

/-- The decoder: total on every word, rejecting by name. -/
def decode : RowWord → Except DecodeError Instr
  | .tag t => .ok (decodeTag t)
  | .field slot [b] => decodeByte slot b
  | .field .disp [b0, b1, b2, b3] => .ok (.disp32 ((leValue [b0, b1, b2, b3]).setWidth 32))
  | .field .imm [b0, b1] => .ok (.imm 2 (sextBytes (leValue [b0, b1]) 2))
  | .field .imm [b0, b1, b2, b3] => .ok (.imm 4 (sextBytes (leValue [b0, b1, b2, b3]) 4))
  | .field .imm [b0, b1, b2, b3, b4, b5, b6, b7] => .ok (.imm 8 (leValue [b0, b1, b2, b3, b4, b5, b6, b7]))
  | .field .operand [b0, b1, b2, b3, b4, b5, b6, b7] => .ok (decodeDesc (leValue [b0, b1, b2, b3, b4, b5, b6, b7]))
  | .field slot _ => .error (.badLength slot)

/-! ### Encode -/

/-- The word of a row, from the same tables of spec/30_encoding.md. -/
def encode : Instr → RowWord
  | .fmtNp => .tag 0
  | .fmtM => .tag 1
  | .fmtMi => .tag 2
  | .fmtMr => .tag 3
  | .fmtRm => .tag 4
  | .fmtMri => .tag 5
  | .fmtRmi => .tag 6
  | .fmtI => .tag 7
  | .fmtAi => .tag 8
  | .fmtO => .tag 9
  | .fmtOi => .tag 10
  | .fmtAo => .tag 11
  | .fmtD => .tag 12
  | .fmtUnrealized t => .tag t
  | .prefixAddr32 => .field .addr32 [0x67]
  | .prefixSegEs => .field .seg (segByte .es)
  | .prefixSegCs => .field .seg (segByte .cs)
  | .prefixSegSs => .field .seg (segByte .ss)
  | .prefixSegDs => .field .seg (segByte .ds)
  | .prefixSegFs => .field .seg (segByte .fs)
  | .prefixSegGs => .field .seg (segByte .gs)
  | .prefixMp66 => .field .mp [0x66]
  | .prefixMpF2 => .field .mp [0xF2]
  | .prefixMpF3 => .field .mp [0xF3]
  | .rex w r x b => .field .rex [rexByteOf w r x b]
  | .esc0F => .field .esc [0x0F]
  | .esc38 => .field .esc2 [0x38]
  | .esc3A => .field .esc2 [0x3A]
  | .opc1 o => .field .opc1 [o]
  | .opc1Reg o r => .field .opcReg [opcRegByte o r]
  | .opc2 p => .field .opc2 [p]
  | .modrm mod reg rm => .field .modrm [modrmByte mod reg rm]
  | .sib scale index base => .field .sib [sibByte scale index base]
  | .disp8 d => .field .disp [d]
  | .disp32 d => .field .disp (le (d.setWidth 64) 4)
  | .imm w v => .field .imm (le v w)
  | .operandReg cls code => .field .operand (le (descReg cls code) 8)
  | .operandMem unused scale index base disp => .field .operand (le (descMem unused scale index base disp) 8)

/-! ### The words of spec/opcode_table.json -/

/-- The first of the fields whose rows have fixed bits that a byte standing alone matches, in the order of rule R60. No
byte matches two of them (log 14). -/
def fixedSlot (b : Byte) : Option Slot :=
  [Slot.addr32, .seg, .mp, .rex, .esc, .esc2].find? fun slot =>
    match decodeByte slot b with
    | .ok _ => true
    | .error _ => false

/-- The word that `w`, numbered as the opcode table numbers its bits, stands for (DESIGN CHOICE, log 14): 8 bits are a
byte of a field with fixed bits, else a format tag; 32 bits are a displacement (DISP32); 64 bits an operand descriptor. A
word of another width is laid out as no byte of field 1 and so is refused by the decoder. -/
def tableWord (nbits w : Nat) : RowWord :=
  if nbits = 8 then
    match fixedSlot (BitVec.ofNat 8 w) with
    | some slot => .field slot [BitVec.ofNat 8 w]
    | none => .tag (BitVec.ofNat 8 w)
  else if nbits = 32 then .field .disp (le (BitVec.ofNat 64 w) 4)
  else if nbits = 64 then .field .operand (le (BitVec.ofNat 64 w) 8)
  else .field .addr32 []

/-- The row the decoder reads from a word of the opcode table. -/
def decodeTableWord (nbits w : Nat) : Option Instr :=
  match decode (tableWord nbits w) with
  | .ok i => some i
  | .error _ => none

end Sys2Proof
end

