-- ==== Sys2Proof/Machine/State.lean ====
section
/-! DEFINITION. The state of CORE as plain data (spec/10_state.md): the caller-visible buffer, cursor and response flag
(R20, R22), the working registers of a transaction (R23), the read-only configuration (R21), what surrounds the block
(R47, R52, R316), the request port's queue (R22, R51), and the counter of free values. -/

namespace Sys2Proof.Machine

/-- The output buffer (R20, R40): the bytes written so far, addresses strictly rising. An unlisted address has no value
(log 8), since R34 gives the buffer no reset contents and CORE never reads it (R41). -/
abbrev Memory := List Host.Cell

/-- The canonical form of memory: every address below 2^64, addresses strictly rising. -/
def Memory.wf : Memory → Bool
  | [] => true
  | [c] => decide (c.1 < 2 ^ 64)
  | c :: d :: m => decide (c.1 < d.1) && decide (c.1 < 2 ^ 64) && Memory.wf (d :: m)

/-- The REX flags `F` of a transaction (R23, R30). -/
structure Flags where
  rexReq : Bool
  w      : Bool
  r      : Bool
  x      : Bool
  b      : Bool
deriving DecidableEq, Repr

/-- The classification of a base code (R109). -/
inductive BaseKind where
  | noBase | ripRel | gplBase | badBase
deriving DecidableEq, Repr

/-- What the descriptor decoder says of the descriptor it looked at last (R100 to R110). -/
inductive View where
  /-- No descriptor has been looked at in this transaction. -/
  | none
  /-- A register: its code (R103), its classes (R101, R102), the mandatory-REX test (R110). -/
  | reg (code : BitVec 4) (gpl gph rex8 : Bool)
  /-- A memory operand: base and its kind (R104, R109), index (R105), scale (R106), displacement (R107). -/
  | mem (base : Code) (kind : BaseKind) (index : Code) (scale : BitVec 4) (disp : BitVec 64)
deriving DecidableEq, Repr

/-- The working registers of one transaction (R23): `cur0`, the request, `rec`, `F`, `S`, the ModRM byte emitted so far
(whose `mod` and `rm` rules R209 and R210 read) and the descriptor decoder's latest result. -/
structure Work where
  cur0   : Addr
  req    : Req
  record : Record
  flags  : Flags
  staged : List Byte
  modrm  : Option Byte
  view   : View
deriving DecidableEq, Repr

/-- The idle request: every slot inert (R12). -/
def Req.idle : Req := { mnem := 0, addr32 := false, seg := .none, op0 := 0, op1 := 0, op2 := 0, op3 := 0 }

/-- The record the working registers hold outside a transaction (DESIGN CHOICE, log 12). -/
def Record.idle : Record :=
  { fmt := 0, mp := .none, esc := .none, w := false, opc1 := 0, opc2 := none, regc := none, immsz := 0, mask8 := 0 }

/-- The working registers outside a transaction (R34: none exist then; DESIGN CHOICE, log 12). -/
def Work.idle (c : Addr) : Work :=
  { cur0 := c, req := Req.idle, record := Record.idle, flags := ⟨false, false, false, false, false⟩, staged := [],
    modrm := none, view := .none }

/-- What can reach the block from outside, between transactions (R22, R34, R312, R315; log 16). -/
inductive Input where
  /-- One call of `encode` at the current cursor (R22, R77). -/
  | request (q : Req)
  /-- The caller sets its cursor (R20, R34, R312). -/
  | moveCursor (a : Addr)
  /-- The caller writes a byte of its own buffer, as when it patches a displacement (R315). -/
  | storeByte (a : Addr) (b : Byte)
  /-- The caller provides other buffer space, or other agents come or go (R47, R52, R312, R316). -/
  | setEnv (e : Env)
  /-- Reset: no transaction is in progress afterwards (R310). -/
  | reset
  /-- The model's own window on a transaction (log 13): steps 1 to 3 of the dispatcher for `q`, and no more. -/
  | probeOpen (q : Req)
  /-- The model's own window on a transaction (log 13): one row of the opcode table, acting on the working registers. -/
  | probeField (slot : Slot) (bytes : List Byte)
deriving DecidableEq, Repr

/-- The machine. `ok` is the flag of the last response (R22, R31): from one response to the start of the next transaction it
keeps its value, whatever the caller does in between. How long the response can be read is not stated (R23 discards `ok` when
the transaction ends): DESIGN CHOICE, log 25. -/
structure State where
  cur    : Addr
  buf    : Memory
  ok     : Bool
  work   : Work
  params : Params
  env    : Env
  inbox  : List Input
  draws  : Nat
deriving DecidableEq, Repr

/-- The causes of the single error outcome (R281). They are labels: no state holds one, and no port shows one (R280). -/
inductive EncodeError where
  | unknownMnemonic | unrealizedFormat | table | operandKind | rexHighbyte | badBase | badIndex | indexSp | badScale
  | ripIndex | immRange
deriving DecidableEq, Repr

/-- Why the machine stops. -/
inductive Fault where
  /-- Raised by the admission check before a transaction (R47): the buffer has not 22 writable bytes at the cursor, or the
  region wraps. The spec makes the transaction stuck, so stopping is SAFE. -/
  | notAdmitted
deriving DecidableEq, Repr

/-- Why an input has no meaning. -/
inductive Refusal where
  /-- Raised by an arm of `exec` that has no meaning yet (none). SAFE. -/
  | notModelled (mnemonic : String)
  /-- Raised by the admission check: a concurrent transaction or another agent uses the region (R52). SAFE. -/
  | regionShared
  /-- Raised by the admission check: the table or requests yet to be read lie in the region (R316). SAFE. -/
  | inputsInRegion
  /-- Raised by a probe whose word stands for no row of the opcode table (log 13). SAFE. -/
  | undecodable (slot : Slot) (bytes : List Byte)
deriving DecidableEq, Repr

/-- The outcome of a step. -/
abbrev Result := Host.Outcome State Fault Refusal

/-- The machine after reset (R34, R310): nothing is in progress and nothing is queued. The spec leaves every value to the
caller or to the build: cursor 0 and `ok` 0 (log 2), an empty table and the sentinels 0x120 and 0 (log 3), the whole
address space writable and nobody else's (log 4), no buffer byte written (log 8), no free value taken (log 9). -/
def State.reset : State :=
  { cur := 0, buf := [], ok := false, work := Work.idle 0,
    params := { table := [], ripSentinel := 0x120, jmpSentinel := 0 },
    env := { writable := [⟨0, 2 ^ 64⟩], busy := [], inputs := [] },
    inbox := [], draws := 0 }

end Sys2Proof.Machine
end

