-- ==== Sys2Proof/Machine/Operands.lean ====
section
/-! DEFINITION. The operand descriptor decoder and the legality predicates (spec/40_operand_descriptor.md rules R100 to R113,
spec/42_immediate.md rule R150): total functions that read no state and never fail (R112). -/

namespace Sys2Proof.Machine

/-- R100. -/
def isMem (op : Desc) : Bool := op.getLsbD 63

/-- R100. -/
def isReg (op : Desc) : Bool := !op.getLsbD 63

/-- R101: the addressable-low class, tested on the whole descriptor. -/
def isGpl (op : Desc) : Bool := (op &&& ~~~(0xF : Desc)) == 0x100

/-- R102: the legacy high-byte class. -/
def isGph (op : Desc) : Bool := (op &&& ~~~(0x3 : Desc)) == 0x204

/-- R103: the register code. -/
def regCode (op : Desc) : BitVec 4 := op.extractLsb' 0 4

/-- R103: the ModRM or opcode field value. -/
def lo3 (op : Desc) : BitVec 3 := op.extractLsb' 0 3

/-- R103: the REX.R or REX.B contribution. -/
def hi1 (op : Desc) : Bool := op.getLsbD 3

/-- R104. -/
def memBase (op : Desc) : Code := op.extractLsb' 32 12

/-- R105. -/
def memIndex (op : Desc) : Code := op.extractLsb' 44 12

/-- R106. -/
def memScale (op : Desc) : BitVec 4 := op.extractLsb' 56 4

/-- R107. -/
def memDisp (op : Desc) : BitVec 64 := (op.extractLsb' 0 32).signExtend 64

/-- R108. -/
def codeIsGpl (c : Code) : Bool := c.extractLsb' 4 8 == 0x10

/-- R108. -/
def codeLo3 (c : Code) : BitVec 3 := c.extractLsb' 0 3

/-- R108. -/
def codeHi1 (c : Code) : Bool := c.getLsbD 3

/-- R109, with `rip` the parameter `RIP_SENTINEL`. -/
def baseKind (rip c : Code) : BaseKind :=
  if c = 0 then .noBase
  else if c = rip then .ripRel
  else if codeIsGpl c then .gplBase
  else .badBase

/-- R110: the mandatory-REX trigger of an 8-bit slot. -/
def isRex8Gpl (op : Desc) : Bool :=
  isGpl op && (regCode op == 4 || regCode op == 5 || regCode op == 6 || regCode op == 7)

/-- R150 (listed by R111): the value survives truncation to `w` bytes and sign extension; width 8 always fits. -/
def fits (v : BitVec 64) (w : Nat) : Bool := w == 8 || sextBytes v w == v

/-- R113: the external helper that builds a memory descriptor. CORE does not use it; the tests and statements do. -/
def memOperand (base : Code) (scale : BitVec 4) (index : Code) (disp : BitVec 32) : Desc :=
  ((1 : BitVec 64) <<< 63 ||| scale.setWidth 64 <<< 56 ||| index.setWidth 64 <<< 44 ||| base.setWidth 64 <<< 32 |||
    disp.setWidth 64 : BitVec 64)

/-- R24: the descriptor of the GPL register `i`. -/
def gplDesc (i : BitVec 4) : Desc := ((0x100 : BitVec 64) + i.setWidth 64 : BitVec 64)

/-- R25: the descriptor of the GPH register `j`. -/
def gphDesc (j : BitVec 2) : Desc := ((0x204 : BitVec 64) + j.setWidth 64 : BitVec 64)

/-- The descriptor decoder's answer for one descriptor (R100 to R110; each caller tests the tag first, R112). -/
def viewOf (rip : Code) (op : Desc) : View :=
  if isMem op then .mem (memBase op) (baseKind rip (memBase op)) (memIndex op) (memScale op) (memDisp op)
  else .reg (regCode op) (isGpl op) (isGph op) (isRex8Gpl op)

end Sys2Proof.Machine
end

