-- ==== Sys2Proof/Machine/Flags.lean ====
section
/-! DEFINITION. Every computation on the REX flags `F` (spec/10_state.md rule R30): the initial value (R235), the mandatory-REX
rule (R234), the derivations of R, X and B (R171, R192 to R194), and what a REX byte is and when it stands (R131). -/

namespace Sys2Proof.Machine

/-- R235: `F` before step 3. -/
def Flags.initial (w : Bool) : Flags := { rexReq := false, w := w, r := false, x := false, b := false }

/-- R131: whether a REX byte is present. -/
def rexPresent (f : Flags) : Bool := f.rexReq || f.w || f.r || f.x || f.b

/-- R131: its value. -/
def rexByte (f : Flags) : Byte := rexByteOf f.w f.r f.x f.b

/-- One slot of rule R234: flagged, and an addressable-low register of code 4 to 7. -/
def forcesRex (flagged : Bool) (op : Desc) : Bool := flagged && isRex8Gpl op

/-- R234: the mandatory-REX rule over the four raw slots. -/
def mandatoryRex (mask : BitVec 4) (q : Req) (f : Flags) : Flags :=
  { f with
    rexReq := f.rexReq || forcesRex (mask.getLsbD 0) q.op0 || forcesRex (mask.getLsbD 1) q.op1 ||
      forcesRex (mask.getLsbD 2) q.op2 || forcesRex (mask.getLsbD 3) q.op3 }

/-- R192: REX.R from a reg-field register. -/
def Flags.orR (f : Flags) (v : Bool) : Flags := { f with r := f.r || v }

/-- R194: REX.X from an index. -/
def Flags.orX (f : Flags) (v : Bool) : Flags := { f with x := f.x || v }

/-- R171, R193, R194: REX.B from an opcode register, a register destination or a base. -/
def Flags.orB (f : Flags) (v : Bool) : Flags := { f with b := f.b || v }

end Sys2Proof.Machine
end

