-- ==== Sys2Proof/Machine/Ops.lean ====
section
/-! DEFINITION. The named operations over memory and the working registers: the buffer (spec/20_memory.md), the table lookup
(R231), the start of a transaction (R230 to R235, R311), staging (R33), commit (R42, R238), and the one exceptional outcome,
written once (R43, R238, R280, R284). -/

namespace Sys2Proof.Machine

/-! ### The buffer -/

/-- One byte of the buffer; none for a byte nothing has written (log 8). CORE itself never reads it (R41). -/
def Memory.read : Memory → Nat → Option Byte
  | [], _ => none
  | c :: m, a => if c.1 = a then some c.2 else Memory.read m a

/-- One byte write, keeping addresses strictly rising (R48). -/
def Memory.write : Memory → Nat → Byte → Memory
  | [], a, b => [(a, b)]
  | c :: m, a, b =>
    if a < c.1 then (a, b) :: c :: m
    else if a = c.1 then (a, b) :: m
    else c :: Memory.write m a b

/-- `MemWrite(addr, n, s)` (R10): byte `s[k]` goes to `addr + k` (R45). -/
def Memory.writeBytes (m : Memory) (addr : Addr) : List Byte → Memory
  | [] => m
  | b :: bs => Memory.writeBytes (m.write addr.toNat b) (addr + 1) bs

/-! ### Regions and admission (R47, R52, R316) -/

/-- Whether a region holds an address. -/
def regionHolds (r : Region) (a : Nat) : Bool := decide (r.base ≤ a) && decide (a < r.base + r.size)

/-- Whether some region of a list holds an address. -/
def anyHolds (rs : List Region) (a : Nat) : Bool := rs.any fun r => regionHolds r a

/-- The addresses a transaction at `c` may touch: `MAXLEN` of them (R43, R47). -/
def reach (c : Addr) : List Nat := (List.range Config.maxLen).map fun k => c.toNat + k

/-- R47: `MAXLEN` writable bytes at the cursor, and `cur0 + MAXLEN` does not wrap (log 10). -/
def capacityOk (e : Env) (c : Addr) : Bool :=
  decide (c.toNat + Config.maxLen < 2 ^ 64) && (reach c).all fun a => anyHolds e.writable a

/-- R52: a concurrent transaction or another agent uses a byte of the region. -/
def shared (e : Env) (c : Addr) : Bool := (reach c).any fun a => anyHolds e.busy a

/-- R316: the table or requests yet to be read lie in the region. -/
def inputsInside (e : Env) (c : Addr) : Bool := (reach c).any fun a => anyHolds e.inputs a

/-- Runs `k` only for an admitted transaction (R47, R52, R316; the order of the three tests is log 11). -/
def whenAdmitted (s : State) (k : State → Result) : Result :=
  if !capacityOk s.env s.cur then .fault .notAdmitted
  else if shared s.env s.cur then .refused .regionShared
  else if inputsInside s.env s.cur then .refused .inputsInRegion
  else k s

/-! ### The lookup port -/

/-- `Table(mnem)` (R231, R56): the first pair of that mnemonic. -/
def lookup (p : Params) (mnem : Nat) : Option Record := p.table.lookup mnem

/-! ### A transaction's start, end and failure -/

/-- The working registers at the start of a transaction (R230, R234, R235, R311). -/
def Work.start (c : Addr) (q : Req) (record : Record) : Work :=
  { cur0 := c, req := q, record := record, flags := mandatoryRex record.mask8 q (Flags.initial record.w), staged := [],
    modrm := none, view := .none }

/-- Steps 1 to 3 of the dispatcher for a record that was found. `ok` is undefined from here to the end (R23, log 24). -/
def State.load (s : State) (q : Req) (record : Record) : State :=
  { s with work := Work.start s.cur q record, ok := Config.freeBit s.draws, draws := s.draws + 1 }

/-- Bytes appended to the staging list `S` (R23, R33). -/
def State.stage (s : State) (bs : List Byte) : State :=
  { s with work := { s.work with staged := s.work.staged ++ bs } }

/-- The ModRM byte that rules R209 and R210 read from now on. -/
def State.latchModrm (s : State) (b : Byte) : State := { s with work := { s.work with modrm := some b } }

/-- The descriptor decoder's latest result. -/
def State.latchView (s : State) (v : View) : State := { s with work := { s.work with view := v } }

/-- R42, R238: the bytes go to the buffer at `cur0`, the cursor moves past them, `ok` is 1, and the working registers are
discarded. -/
def State.commit (s : State) (bs : List Byte) : State :=
  { s with
    buf := s.buf.writeBytes s.work.cur0 bs
    cur := s.work.cur0 + BitVec.ofNat 64 bs.length
    ok := true
    work := Work.idle (s.work.cur0 + BitVec.ofNat 64 bs.length) }

/-- The `MAXLEN` free values a failure draws, from counter `d` on (R43, log 9). -/
def freeBytes (d : Nat) : List Byte := (List.range Config.maxLen).map fun k => Config.freeByte (d + k)

/-- The one exceptional outcome (R43, R238, R280, R284): the cursor is what it was, `ok` is 0, the `MAXLEN` bytes at the
cursor hold free values, nothing is saved, no handler runs, and the working registers are discarded. -/
def State.fail (s : State) : State :=
  { s with
    buf := s.buf.writeBytes s.work.cur0 (freeBytes s.draws)
    cur := s.work.cur0
    ok := false
    work := Work.idle s.work.cur0
    draws := s.draws + Config.maxLen }

/-- Step 7 (R238): commit the prefixes and the body, or fail. -/
def State.finish (s : State) (pre : List Byte) (body : Except EncodeError (List Byte)) : Result :=
  match body with
  | .ok bs => .next (s.commit (pre ++ bs))
  | .error _ => .next s.fail

/-! ### What the caller does between transactions (log 16) -/

/-- The head of the request queue is taken (R51). -/
def State.take (s : State) (rest : List Input) : State := { s with inbox := rest }

/-- The caller sets its cursor; no transaction is in progress (R34, R312). -/
def State.moveCursor (s : State) (a : Addr) : State := { s with cur := a, work := Work.idle a }

/-- The caller writes its own buffer (R315). -/
def State.storeByte (s : State) (a : Addr) (b : Byte) : State := { s with buf := s.buf.write a.toNat b }

/-- The surroundings change (R47, R52, R312, R316). -/
def State.setEnv (s : State) (e : Env) : State := { s with env := e }

/-- R310: reset clears nothing; no transaction is in progress. -/
def State.quiesce (s : State) : State := { s with work := Work.idle s.cur }

end Sys2Proof.Machine
end

