-- ==== Sys2Proof/Machine/Serializer.lean ====
section
/-! DEFINITION. The opcode/prefix serializer (spec/41_opcode_prefix.md), the dispatcher's two prefixes (R236, R237), and the
rows of the opcode table that stand for its bytes. Each line of R132's pseudocode is one function, `…Line`, which gives the
bytes of that line, none when the line's condition does not hold: the serializer is their concatenation, and the row's
meaning stages the same line. -/

namespace Sys2Proof.Machine

/-! ### The lines -/

/-- R236, field 1 of R60. -/
def addr32Line (q : Req) : List Byte := if q.addr32 then [0x67] else []

/-- R237, field 2 of R60, for one named segment. -/
def segLine (q : Req) (sg : Seg) : List Byte := if q.seg = sg then segByte sg else []

/-- R61, R132: field 3 of R60, for one selector and its byte. -/
def mpLine (r : Record) (m : Mp) (b : Byte) : List Byte := if r.mp = m then [b] else []

/-- R64, R131: field 4 of R60. -/
def rexLine (f : Flags) : List Byte := if rexPresent f then [rexByte f] else []

/-- R65, R132: field 5 of R60. -/
def esc0FLine (r : Record) : List Byte := if r.esc = .e0F ∨ r.esc = .e0F38 ∨ r.esc = .e0F3A then [0x0F] else []

/-- R65, R132: field 6 of R60, 0x38. -/
def esc38Line (r : Record) : List Byte := if r.esc = .e0F38 then [0x38] else []

/-- R65, R132: field 6 of R60, 0x3A. -/
def esc3ALine (r : Record) : List Byte := if r.esc = .e0F3A then [0x3A] else []

/-- R134: field 8 of R60. -/
def opc2Line (r : Record) : List Byte :=
  match r.opc2 with
  | some p => [p]
  | none => []

/-- R236, R237: the prefixes the dispatcher emits before the opcode. -/
def prefixBytes (q : Req) : List Byte := addr32Line q ++ segLine q q.seg

/-- `opc_emit(rec, F)` (R132). -/
def opcEmit (r : Record) (f : Flags) : List Byte :=
  mpLine r .p66 0x66 ++ mpLine r .pF2 0xF2 ++ mpLine r .pF3 0xF3 ++ rexLine f ++ esc0FLine r ++ esc38Line r ++
    esc3ALine r ++ [r.opc1] ++ opc2Line r

/-! ### The rows -/

/-- PREFIX_ADDR32 (R62, R236): when `req.addr32 = 1`. -/
def execPrefixAddr32 (s : State) : Result := .next (s.stage (addr32Line s.work.req))

/-- PREFIX_SEG_ES (R63, R237): when `req.seg = ES`. -/
def execPrefixSegEs (s : State) : Result := .next (s.stage (segLine s.work.req .es))

/-- PREFIX_SEG_CS (R63, R237): when `req.seg = CS`. -/
def execPrefixSegCs (s : State) : Result := .next (s.stage (segLine s.work.req .cs))

/-- PREFIX_SEG_SS (R63, R237): when `req.seg = SS`. -/
def execPrefixSegSs (s : State) : Result := .next (s.stage (segLine s.work.req .ss))

/-- PREFIX_SEG_DS (R63, R237): when `req.seg = DS`. -/
def execPrefixSegDs (s : State) : Result := .next (s.stage (segLine s.work.req .ds))

/-- PREFIX_SEG_FS (R63, R237): when `req.seg = FS`. -/
def execPrefixSegFs (s : State) : Result := .next (s.stage (segLine s.work.req .fs))

/-- PREFIX_SEG_GS (R63, R237): when `req.seg = GS`. -/
def execPrefixSegGs (s : State) : Result := .next (s.stage (segLine s.work.req .gs))

/-- PREFIX_MP_66 (R61, R132): when `rec.mp = P66`. -/
def execPrefixMp66 (s : State) : Result := .next (s.stage (mpLine s.work.record .p66 0x66))

/-- PREFIX_MP_F2 (R61, R132): when `rec.mp = PF2`. -/
def execPrefixMpF2 (s : State) : Result := .next (s.stage (mpLine s.work.record .pF2 0xF2))

/-- PREFIX_MP_F3 (R61, R132): when `rec.mp = PF3`. -/
def execPrefixMpF3 (s : State) : Result := .next (s.stage (mpLine s.work.record .pF3 0xF3))

/-- REX (R64, R131): the word's four bits are the flags W, R, X, B; `rex_req`, which has no bit in the byte, is the working
register's (log 21). -/
def execRex (w r x b : Bool) (s : State) : Result :=
  .next (s.stage (rexLine { rexReq := s.work.flags.rexReq, w := w, r := r, x := x, b := b }))

/-- ESC_0F (R65, R132): when `rec.esc ≠ NONE`. -/
def execEsc0F (s : State) : Result := .next (s.stage (esc0FLine s.work.record))

/-- ESC_38 (R65, R132): when `rec.esc = E0F38`. -/
def execEsc38 (s : State) : Result := .next (s.stage (esc38Line s.work.record))

/-- ESC_3A (R65, R132): when `rec.esc = E0F3A`. -/
def execEsc3A (s : State) : Result := .next (s.stage (esc3ALine s.work.record))

/-- OPC1 (R132): always. DESIGN CHOICE (log 26): the byte is the word's own, not compared with `rec.opc1`. -/
def execOpc1 (o : Byte) (s : State) : Result := .next (s.stage [o])

/-- OPC2 (R134): when `rec.opc2 ≠ none`. DESIGN CHOICE (log 26): the byte is the word's own, not compared with the one in
`rec.opc2`. -/
def execOpc2 (p : Byte) (s : State) : Result := .next (s.stage (if s.work.record.opc2.isSome then [p] else []))

end Sys2Proof.Machine
end

