-- ==== Sys2Proof/Machine/Immediate.lean ====
section
/-! DEFINITION. The immediate validator and packer (spec/42_immediate.md), the relative displacement (R153), and the row IMM. -/

namespace Sys2Proof.Machine

/-- The widths rule R151 accepts. -/
def widthOk (w : Nat) : Bool := w == 1 || w == 2 || w == 4 || w == 8

/-- `imm_emit(v, w)` (R151). -/
def immEmit (v : BitVec 64) (w : Nat) : Except EncodeError (List Byte) :=
  if !widthOk w then .error .table
  else if !fits v w then .error .immRange
  else .ok (le v w)

/-- A body of bytes followed by an immediate; the immediate's checks come last (R253). -/
def thenImm (body : Except EncodeError (List Byte)) (v : BitVec 64) (w : Nat) : Except EncodeError (List Byte) :=
  match body with
  | .error e => .error e
  | .ok bs =>
    match immEmit v w with
    | .error e => .error e
    | .ok is => .ok (bs ++ is)

/-- The address after the immediate: `cur0 + len(pre) + len(s) + w` (R153, R252). -/
def relEnd (cur0 : Addr) (n w : Nat) : Addr := cur0 + BitVec.ofNat 64 n + BitVec.ofNat 64 w

/-- The relative displacement (R153): 0 for the sentinel target, else the target less the end, modulo 2^64. -/
def relDisp (jmp target stop : Addr) : BitVec 64 := if target = jmp then 0 else target - stop

/-- The formats with an immediate (R60 field 12): MI, MRI, RMI, I, AI, OI, D. -/
def hasImm (fmt : BitVec 8) : Bool :=
  fmt == 2 || fmt == 5 || fmt == 6 || fmt == 7 || fmt == 8 || fmt == 10 || fmt == 12

/-- IMM (R69, R151): in a format with an immediate, the field is checked and staged, and a value that does not fit fails
the transaction; in any other format there is no such field (log 23). -/
def execImm (w : Nat) (v : BitVec 64) (s : State) : Result :=
  if hasImm s.work.record.fmt then
    match immEmit v w with
    | .ok bs => .next (s.stage bs)
    | .error _ => .next s.fail
  else .next (s.stage [])

end Sys2Proof.Machine
end

