-- ==== Sys2Proof/Machine/RegOpcode.lean ====
section
/-! DEFINITION. The register-in-opcode emitter (spec/43_reg_in_opcode.md) and the row OPC1_REG. -/

namespace Sys2Proof.Machine

/-- The patch of R173: bits [2:0] of the last byte are replaced (D13). -/
def patchLast (bs : List Byte) (r : BitVec 3) : List Byte :=
  match bs with
  | [] => []
  | [b] => [patchLow3 b r]
  | b :: c :: m => b :: patchLast (c :: m) r

/-- `regop_emit(rec, F, r)` (R170 to R173). -/
def regopEmit (record : Record) (f : Flags) (r : Desc) : Except EncodeError (List Byte) :=
  if isMem r then .error .operandKind
  else if rexPresent (f.orB (hi1 r)) && isGph r then .error .rexHighbyte
  else .ok (patchLast (opcEmit record (f.orB (hi1 r))) (lo3 r))

/-- The formats with a register in the opcode: O, OI, AO (R73). -/
def hasOpcReg (fmt : BitVec 8) : Bool := fmt == 9 || fmt == 10 || fmt == 11

/-- OPC1_REG (R173, R79): in the formats O, OI and AO, when OPC1 is the last opcode byte (log 20); its bits are the
word's own (log 26). -/
def execOpc1Reg (o : BitVec 5) (r : BitVec 3) (s : State) : Result :=
  .next (s.stage (if hasOpcReg s.work.record.fmt && s.work.record.opc2.isNone then [opcRegByte o r] else []))

end Sys2Proof.Machine
end

