-- ==== Sys2Proof/Machine/ModRm.lean ====
section
/-! DEFINITION. The ModRM/SIB/displacement assembler (spec/44_modrm_sib.md rules R190 to R211) and the rows MODRM, SIB, DISP8,
DISP32, OPERAND_REG and OPERAND_MEM. -/

namespace Sys2Proof.Machine

/-! ### Reg field and flags (R190 to R195) -/

/-- The reg-field source (R190). -/
inductive RegSrc where
  | regOp (r : Desc)
  | const (k : BitVec 3)
deriving DecidableEq, Repr

/-- R190: `regv`. -/
def regField : RegSrc → BitVec 3
  | .regOp r => lo3 r
  | .const k => k

/-- R191: the reg-field source is not a memory descriptor. -/
def regSrcOk : RegSrc → Bool
  | .regOp r => isReg r
  | .const _ => true

/-- R192: the source's part of REX.R. -/
def regSrcHi1 : RegSrc → Bool
  | .regOp r => hi1 r
  | .const _ => false

/-- R195: the source is a legacy high byte. -/
def regSrcGph : RegSrc → Bool
  | .regOp r => isGph r
  | .const _ => false

/-- R193, R194: REX.B and REX.X from the destination. A base that is not a GPL register gives no REX.B (D12). -/
def destFlags (rip : Code) (f : Flags) (dst : Desc) : Flags :=
  if isReg dst then f.orB (hi1 dst)
  else
    (f.orB (baseKind rip (memBase dst) == .gplBase && codeHi1 (memBase dst))).orX
      (memIndex dst != 0 && codeHi1 (memIndex dst))

/-- R192 to R194: the flag set the ModRM emitter leaves. -/
def modrmFlags (rip : Code) (f : Flags) (dst : Desc) (rs : RegSrc) : Flags :=
  destFlags rip (f.orR (regSrcHi1 rs)) dst

/-- R195: some operand of the pair is a legacy high byte. -/
def gphAny (dst : Desc) (rs : RegSrc) : Bool := regSrcGph rs || (isReg dst && isGph dst)

/-! ### Destination resolution (R196 to R207) -/

/-- What the index part settles (R197 to R200). -/
structure IndexForm where
  needed : Bool
  scale2 : BitVec 2
  idx3   : BitVec 3
deriving DecidableEq, Repr

/-- R199: the scale code. -/
def scaleCode (sc : BitVec 4) : Except EncodeError (BitVec 2) :=
  if sc = 1 then .ok 0
  else if sc = 2 then .ok 1
  else if sc = 4 then .ok 2
  else if sc = 8 then .ok 3
  else .error .badScale

/-- R197 to R200; without an index the scale is not read and the code is 4 (D9, D10). -/
def indexForm (i : Code) (sc : BitVec 4) : Except EncodeError IndexForm :=
  if i = 0 then .ok { needed := false, scale2 := 0, idx3 := 4 }
  else if !codeIsGpl i then .error .badIndex
  else if codeLo3 i = 4 then .error .indexSp
  else
    match scaleCode sc with
    | .error e => .error e
    | .ok c => .ok { needed := true, scale2 := c, idx3 := codeLo3 i }

/-- What the base part settles (R201 to R206). -/
structure BaseForm where
  rm      : BitVec 3
  mod     : BitVec 2
  force32 : Bool
  needSib : Bool
deriving DecidableEq, Repr

/-- R205, R206: `mod` for an ordinary base. -/
def modFor (rm : BitVec 3) (d : BitVec 64) : BitVec 2 :=
  if d = 0 ∧ rm ≠ 5 then 0
  else if fits d 1 then 1
  else 2

/-- R201 to R206, with `hasIndex` for `i ≠ 0`. -/
def baseForm (rip b : Code) (hasIndex : Bool) (d : BitVec 64) : Except EncodeError BaseForm :=
  match baseKind rip b with
  | .noBase => .ok { rm := 5, mod := 0, force32 := true, needSib := true }
  | .ripRel =>
    if hasIndex then .error .ripIndex else .ok { rm := 5, mod := 0, force32 := true, needSib := false }
  | .badBase => .error .badBase
  | .gplBase => .ok { rm := codeLo3 b, mod := modFor (codeLo3 b) d, force32 := false, needSib := false }

/-- The resolved addressing form: what rules R208 to R210 emit from. -/
structure Form where
  mod     : BitVec 2
  rm      : BitVec 3
  sibBase : BitVec 3
  scale2  : BitVec 2
  idx3    : BitVec 3
  force32 : Bool
deriving DecidableEq, Repr

/-- R207: the base moves into the SIB. -/
def relocate (ix : IndexForm) (bs : BaseForm) : Form :=
  if ix.needed || bs.needSib || bs.rm == 4 then
    { mod := bs.mod, rm := 4, sibBase := bs.rm, scale2 := ix.scale2, idx3 := ix.idx3, force32 := bs.force32 }
  else { mod := bs.mod, rm := bs.rm, sibBase := 0, scale2 := ix.scale2, idx3 := ix.idx3, force32 := bs.force32 }

/-- R196 for a register; R197 to R207 for a memory operand. -/
def resolve (rip : Code) (dst : Desc) : Except EncodeError Form :=
  if isReg dst then .ok { mod := 3, rm := lo3 dst, sibBase := 0, scale2 := 0, idx3 := 4, force32 := false }
  else
    match indexForm (memIndex dst) (memScale dst) with
    | .error e => .error e
    | .ok ix =>
      match baseForm rip (memBase dst) ix.needed (memDisp dst) with
      | .error e => .error e
      | .ok bs => .ok (relocate ix bs)

/-! ### Emission (R208 to R211) -/

/-- R209: whether a SIB byte follows. -/
def sibFollows (mod : BitVec 2) (rm : BitVec 3) : Bool := mod != 3 && rm == 4

/-- R68, R210: the displacement's width. -/
def dispLen (force32 : Bool) (mod : BitVec 2) : Nat :=
  if force32 then 4
  else if mod = 1 then 1
  else if mod = 2 then 4
  else 0

/-- R209: the SIB byte, if one follows. -/
def sibLine (fm : Form) : List Byte :=
  if sibFollows fm.mod fm.rm then [sibByte fm.scale2 fm.idx3 fm.sibBase] else []

/-- ModRM, SIB and displacement (R208 to R210). -/
def formBytes (fm : Form) (regv : BitVec 3) (d : BitVec 64) : List Byte :=
  [modrmByte fm.mod regv fm.rm] ++ sibLine fm ++ le d (dispLen fm.force32 fm.mod)

/-- `modrm_emit(rec, F, dst, rs)` (R211). -/
def modrmEmit (rip : Code) (record : Record) (f : Flags) (dst : Desc) (rs : RegSrc) : Except EncodeError (List Byte) :=
  if !regSrcOk rs then .error .operandKind
  else if rexPresent (modrmFlags rip f dst rs) && gphAny dst rs then .error .rexHighbyte
  else
    match resolve rip dst with
    | .error e => .error e
    | .ok fm => .ok (opcEmit record (modrmFlags rip f dst rs) ++ formBytes fm (regField rs) (memDisp dst))

/-! ### The rows -/

/-- The formats with a ModRM byte (R60 field 9): M, MI, MR, RM, MRI, RMI. -/
def hasModrm (fmt : BitVec 8) : Bool := fmt == 1 || fmt == 2 || fmt == 3 || fmt == 4 || fmt == 5 || fmt == 6

/-- The `mod` of a ModRM byte (R66). -/
def modOf (b : Byte) : BitVec 2 := b.extractLsb' 6 2

/-- The `rm` of a ModRM byte (R66). -/
def rmOf (b : Byte) : BitVec 3 := b.extractLsb' 0 3

/-- R201, R202: whether the operand looked at last forces a 32-bit displacement. -/
def viewForces32 : View → Bool
  | .none => false
  | .reg _ _ _ _ => false
  | .mem _ k _ _ _ => k == .noBase || k == .ripRel

/-- The width of the displacement field of the transaction's ModRM byte (R68, R210), 0 before there is one (log 22). -/
def dispWidth (k : Work) : Nat :=
  match k.modrm with
  | none => 0
  | some b => dispLen (viewForces32 k.view) (modOf b)

/-- Whether the transaction's ModRM byte calls for a SIB byte (R209), false before there is one (log 22). -/
def wantsSib (k : Work) : Bool :=
  match k.modrm with
  | none => false
  | some b => sibFollows (modOf b) (rmOf b)

/-- MODRM (R66, R208): in a format with a ModRM byte. Rules R209 and R210 read `mod` and `rm` from it.
Its bits are the word's own (log 26). -/
def execModrm (mod : BitVec 2) (reg rm : BitVec 3) (s : State) : Result :=
  if hasModrm s.work.record.fmt then
    .next ((s.stage [modrmByte mod reg rm]).latchModrm (modrmByte mod reg rm))
  else .next (s.stage [])

/-- SIB (R67, R209): when the ModRM byte has `mod ≠ 3` and `rm = 4`. Its bits are the word's own (log 26). -/
def execSib (scale : BitVec 2) (index base : BitVec 3) (s : State) : Result :=
  .next (s.stage (if wantsSib s.work then [sibByte scale index base] else []))

/-- DISP8 (R68, R210): when the displacement is one byte wide. Its byte is the word's own (log 26). -/
def execDisp8 (d : Byte) (s : State) : Result :=
  .next (s.stage (if dispWidth s.work = 1 then [d] else []))

/-- DISP32 (R68, R210): when the displacement is four bytes wide. Its bytes are the word's own (log 26). -/
def execDisp32 (d : BitVec 32) (s : State) : Result :=
  .next (s.stage (if dispWidth s.work = 4 then le (d.setWidth 64) 4 else []))

/-- OPERAND_REG (R71, R100 to R103, R110): the decoder looks at a register descriptor. -/
def execOperandReg (cls : BitVec 59) (code : BitVec 4) (s : State) : Result :=
  .next (s.latchView (viewOf s.params.ripSentinel (descReg cls code)))

/-- OPERAND_MEM (R70, R100, R104 to R109): the decoder looks at a memory descriptor. -/
def execOperandMem (unused : BitVec 3) (scale : BitVec 4) (index base : Code) (disp : BitVec 32) (s : State) : Result :=
  .next (s.latchView (viewOf s.params.ripSentinel (descMem unused scale index base disp)))

end Sys2Proof.Machine
end

