-- ==== Sys2Proof/Machine/Formats.lean ====
section
/-! DEFINITION. The format dispatcher's thirteen formats and the unrealized tag (spec/45_dispatcher.md rules R232, R233, R236 to
R253). A meaning takes the working registers as steps 1 to 3 leave them (`F` on entry as rules R234 and R235 set it) and
ends in one of the two outcomes of step 7, commit or failure (R238). -/

namespace Sys2Proof.Machine

/-- Steps 4 to 7 (R236 to R238) around a body. -/
def runBody (s : State) (body : Except EncodeError (List Byte)) : Result :=
  s.finish (prefixBytes s.work.req) body

/-- The ModRM emitter on the transaction's record, flags and sentinel. -/
def emitModrm (s : State) (dst : Desc) (rs : RegSrc) : Except EncodeError (List Byte) :=
  modrmEmit s.params.ripSentinel s.work.record s.work.flags dst rs

/-- The ModRM emitter with the record's reg-field constant; without one the record is malformed (R233, D16). -/
def emitConst (s : State) (dst : Desc) : Except EncodeError (List Byte) :=
  match s.work.record.regc with
  | none => .error .table
  | some k => emitModrm s dst (.const k)

/-- The body of format D (R252). -/
def relBody (s : State) : Except EncodeError (List Byte) :=
  thenImm (.ok (opcEmit s.work.record s.work.flags))
    (relDisp s.params.jmpSentinel s.work.req.op0
      (relEnd s.work.cur0
        ((prefixBytes s.work.req).length + (opcEmit s.work.record s.work.flags).length) s.work.record.immsz))
    s.work.record.immsz

/-- FMT_NP (R240). -/
def execFmtNp (s : State) : Result := runBody s (.ok (opcEmit s.work.record s.work.flags))

/-- FMT_M (R241). -/
def execFmtM (s : State) : Result := runBody s (emitConst s s.work.req.op0)

/-- FMT_MI (R242). -/
def execFmtMi (s : State) : Result :=
  runBody s (thenImm (emitConst s s.work.req.op0) s.work.req.op1 s.work.record.immsz)

/-- FMT_MR (R243). -/
def execFmtMr (s : State) : Result := runBody s (emitModrm s s.work.req.op0 (.regOp s.work.req.op1))

/-- FMT_RM (R244). -/
def execFmtRm (s : State) : Result := runBody s (emitModrm s s.work.req.op1 (.regOp s.work.req.op0))

/-- FMT_MRI (R245). -/
def execFmtMri (s : State) : Result :=
  runBody s (thenImm (emitModrm s s.work.req.op0 (.regOp s.work.req.op1)) s.work.req.op2 s.work.record.immsz)

/-- FMT_RMI (R246). -/
def execFmtRmi (s : State) : Result :=
  runBody s (thenImm (emitModrm s s.work.req.op1 (.regOp s.work.req.op0)) s.work.req.op2 s.work.record.immsz)

/-- FMT_I (R247). -/
def execFmtI (s : State) : Result :=
  runBody s (thenImm (.ok (opcEmit s.work.record s.work.flags)) s.work.req.op0 s.work.record.immsz)

/-- FMT_AI (R248): `op0`, the accumulator, is not read (D32). -/
def execFmtAi (s : State) : Result :=
  runBody s (thenImm (.ok (opcEmit s.work.record s.work.flags)) s.work.req.op1 s.work.record.immsz)

/-- FMT_O (R249). -/
def execFmtO (s : State) : Result := runBody s (regopEmit s.work.record s.work.flags s.work.req.op0)

/-- FMT_OI (R250). -/
def execFmtOi (s : State) : Result :=
  runBody s (thenImm (regopEmit s.work.record s.work.flags s.work.req.op0) s.work.req.op1 s.work.record.immsz)

/-- FMT_AO (R251): the register is `op1`; `op0`, the accumulator, is not read (D32). -/
def execFmtAo (s : State) : Result := runBody s (regopEmit s.work.record s.work.flags s.work.req.op1)

/-- FMT_D (R252). -/
def execFmtD (s : State) : Result := runBody s (relBody s)

/-- FMT_UNREALIZED (R232): the transaction fails, whatever the tag. -/
def execFmtUnrealized (_tag : BitVec 8) (s : State) : Result := runBody s (.error .unrealizedFormat)

end Sys2Proof.Machine
end

