-- ==== Sys2Proof/Machine/Dispatch.lean ====
section
/-! DEFINITION. One arm per row of spec/opcode_table.json, each one call of the row's meaning. -/

namespace Sys2Proof.Machine

def exec (i : Instr) (s : State) : Host.Outcome State Fault Refusal :=
  match i with
  | .fmtNp => Sys2Proof.Machine.execFmtNp s
  | .fmtM => Sys2Proof.Machine.execFmtM s
  | .fmtMi => Sys2Proof.Machine.execFmtMi s
  | .fmtMr => Sys2Proof.Machine.execFmtMr s
  | .fmtRm => Sys2Proof.Machine.execFmtRm s
  | .fmtMri => Sys2Proof.Machine.execFmtMri s
  | .fmtRmi => Sys2Proof.Machine.execFmtRmi s
  | .fmtI => Sys2Proof.Machine.execFmtI s
  | .fmtAi => Sys2Proof.Machine.execFmtAi s
  | .fmtO => Sys2Proof.Machine.execFmtO s
  | .fmtOi => Sys2Proof.Machine.execFmtOi s
  | .fmtAo => Sys2Proof.Machine.execFmtAo s
  | .fmtD => Sys2Proof.Machine.execFmtD s
  | .fmtUnrealized t => Sys2Proof.Machine.execFmtUnrealized t s
  | .prefixAddr32 => Sys2Proof.Machine.execPrefixAddr32 s
  | .prefixSegEs => Sys2Proof.Machine.execPrefixSegEs s
  | .prefixSegCs => Sys2Proof.Machine.execPrefixSegCs s
  | .prefixSegSs => Sys2Proof.Machine.execPrefixSegSs s
  | .prefixSegDs => Sys2Proof.Machine.execPrefixSegDs s
  | .prefixSegFs => Sys2Proof.Machine.execPrefixSegFs s
  | .prefixSegGs => Sys2Proof.Machine.execPrefixSegGs s
  | .prefixMp66 => Sys2Proof.Machine.execPrefixMp66 s
  | .prefixMpF2 => Sys2Proof.Machine.execPrefixMpF2 s
  | .prefixMpF3 => Sys2Proof.Machine.execPrefixMpF3 s
  | .rex w r x b => Sys2Proof.Machine.execRex w r x b s
  | .esc0F => Sys2Proof.Machine.execEsc0F s
  | .esc38 => Sys2Proof.Machine.execEsc38 s
  | .esc3A => Sys2Proof.Machine.execEsc3A s
  | .opc1 o => Sys2Proof.Machine.execOpc1 o s
  | .opc1Reg o r => Sys2Proof.Machine.execOpc1Reg o r s
  | .opc2 p => Sys2Proof.Machine.execOpc2 p s
  | .modrm mod reg rm => Sys2Proof.Machine.execModrm mod reg rm s
  | .sib scale index base => Sys2Proof.Machine.execSib scale index base s
  | .disp8 d => Sys2Proof.Machine.execDisp8 d s
  | .disp32 d => Sys2Proof.Machine.execDisp32 d s
  | .imm w v => Sys2Proof.Machine.execImm w v s
  | .operandReg cls code => Sys2Proof.Machine.execOperandReg cls code s
  | .operandMem unused scale index base disp => Sys2Proof.Machine.execOperandMem unused scale index base disp s

end Sys2Proof.Machine
end

