-- ==== Sys2Proof/Machine/Fetch.lean ====
section
/-! DEFINITION. How an input of the request port comes to run (spec/10_state.md rule R22, spec/20_memory.md rule R51,
spec/45_dispatcher.md rules R230 to R235, R253), and where a word of the opcode table is placed for the next step. -/

namespace Sys2Proof.Machine

/-- Steps 1 to 3 of the dispatcher (R230, R231, R234, R235): an unknown mnemonic fails the transaction, else the working
registers are loaded and `k` goes on. -/
def openTransaction (q : Req) (s : State) (k : Record → State → Result) : Result :=
  whenAdmitted s fun s =>
    match lookup s.params q.mnem with
    | none => .next s.quiesce.fail
    | some record => k record (s.load q record)

/-- The format tag of the record says which row runs (R73, R232, R253). -/
def runTag (record : Record) (s : State) : Result := exec (decodeTag record.fmt) s

/-- A probe word is decoded and its row runs on the working registers (log 13). -/
def runField (slot : Slot) (bytes : List Byte) (s : State) : Result :=
  whenAdmitted s fun s =>
    match decode (.field slot bytes) with
    | .error _ => .refused (.undecodable slot bytes)
    | .ok i => exec i s

/-- One input. -/
def runInput (i : Input) (s : State) : Result :=
  match i with
  | .request q => openTransaction q s runTag
  | .moveCursor a => .next (s.moveCursor a)
  | .storeByte a b => .next (s.storeByte a b)
  | .setEnv e => .next (s.setEnv e)
  | .reset => .next s.quiesce
  | .probeOpen q => openTransaction q s fun _ t => .next t
  | .probeField slot bytes => runField slot bytes s

/-- The next input is taken from the head of the queue (R51); with none, the block waits (log 16). -/
def runNext (s : State) : Result :=
  match s.inbox with
  | [] => .next s
  | i :: rest => runInput i (s.take rest)

/-- A record of one format, for placing a format tag: a reg-field constant and a one-byte immediate are there for the
formats that need them (log 15). -/
def placedRecord (tag : Byte) : Record := { Record.idle with fmt := tag, regc := some 0, immsz := 1 }

/-- Where the next step fetches: a format tag comes through the table, so the table answers mnemonic 0 with a record of
that tag and a request for mnemonic 0 stands at the head of the queue; a field's word stands there itself (log 15). -/
def placeWord (s : State) (word : RowWord) : State :=
  match word with
  | .tag t =>
    { s with
      params := { s.params with table := (0, placedRecord t) :: s.params.table }
      inbox := .request Req.idle :: s.inbox }
  | .field slot bytes => { s with inbox := .probeField slot bytes :: s.inbox }

end Sys2Proof.Machine
end

