-- ==== Sys2Proof/Safety.lean ====
section
/-! DEFINITION. What the statements speak of: the invariant of every state between steps, what the caller sees, and the
CLOSED FORM of a transaction, written from the table of rule R60, the format table of R73, the addressing forms of R74 and
95_test_vectors.md section 3.4, and the causes of R281. The closed form shares with the machine only the descriptor
predicates (R100 to R110) and `le`: bytes are written as bit patterns, legality as conditions on the operands, lengths as
sums, so that a slip in the machine's step-by-step emitters would show as a false statement. -/

namespace Sys2Proof.Machine

/-! ### The invariant and the caller's view -/

/-- Between steps: memory is canonical, the captured cursor is the cursor (R29, R311), and the configuration meets D18. -/
def State.Inv (s : State) : Prop :=
  Memory.wf s.buf = true ∧ s.work.cur0 = s.cur ∧ s.params.wf

/-- The transaction at the cursor is admitted (R47) and neither refused for sharing (R52) nor for aliasing (R316). -/
def State.Admitted (s : State) : Prop :=
  s.cur.toNat + 22 < 2 ^ 64 ∧
    ∀ k : Nat, k < 22 →
      (∃ r ∈ s.env.writable, r.base ≤ s.cur.toNat + k ∧ s.cur.toNat + k < r.base + r.size) ∧
      (∀ r ∈ s.env.busy, ¬ (r.base ≤ s.cur.toNat + k ∧ s.cur.toNat + k < r.base + r.size)) ∧
      (∀ r ∈ s.env.inputs, ¬ (r.base ≤ s.cur.toNat + k ∧ s.cur.toNat + k < r.base + r.size))

/-- `a` is outside the `n` addresses from `c` on. -/
def Outside (a : Nat) (c : Addr) (n : Nat) : Prop := ∀ k : Nat, k < n → a ≠ (c + BitVec.ofNat 64 k).toNat

/-- Everything but the staging list, the ModRM byte and the descriptor view is as before: what one emitted field or one
descriptor leaves alone. -/
def KeepsAllButStaging (s t : State) : Prop :=
  t.cur = s.cur ∧ (∀ a, t.buf.read a = s.buf.read a) ∧ t.ok = s.ok ∧ t.params = s.params ∧ t.env = s.env ∧
    t.inbox = s.inbox ∧ t.draws = s.draws ∧ t.work.cur0 = s.work.cur0 ∧ t.work.req = s.work.req ∧
    t.work.record = s.work.record ∧ t.work.flags = s.work.flags

/-- `n` steps, stopping at the first fault or refusal: Host.Core.run at this machine's own types. -/
def runSteps : Nat → State → Result
  | 0, s => .next s
  | n + 1, s =>
    match step s with
    | .next t => runSteps n t
    | .fault f => .fault f
    | .refused r => .refused r

/-! ### Bit patterns of spec/opcode_table.json -/

/-- `0100WRXB`. -/
def rexPattern (f : Flags) : Byte :=
  ((4 : BitVec 4) ++ BitVec.ofBool f.w ++ BitVec.ofBool f.r ++ BitVec.ofBool f.x ++ BitVec.ofBool f.b : BitVec 8)

/-- `mmrrrbbb` and `ssiiibbb`. -/
def pattern233 (m : BitVec 2) (r b : BitVec 3) : Byte := (m ++ r ++ b : BitVec 8)

/-- `ooooorrr`: the five high bits of `o`, then `r`. -/
def pattern53 (o : Byte) (r : BitVec 3) : Byte := (o.extractLsb' 3 5 ++ r : BitVec 8)

/-! ### The fields of R60 before the ModRM byte -/

/-- Fields 1 and 2. -/
def layoutPrefixes (q : Req) : List Byte :=
  (match q.addr32 with | true => [0x67] | false => []) ++
  (match q.seg with
    | .none => [] | .es => [0x26] | .cs => [0x2E] | .ss => [0x36] | .ds => [0x3E] | .fs => [0x64] | .gs => [0x65])

/-- Some REX flag is set (R64). -/
abbrev AnyRex (f : Flags) : Prop := f.rexReq = true ∨ f.w = true ∨ f.r = true ∨ f.x = true ∨ f.b = true

/-- Fields 3 to 8; `p` is the register code folded into the last opcode byte, if any (R79). -/
def layoutOpcode (r : Record) (f : Flags) (p : Option (BitVec 3)) : List Byte :=
  (match r.mp with | .none => [] | .p66 => [0x66] | .pF2 => [0xF2] | .pF3 => [0xF3]) ++
  (if AnyRex f then [rexPattern f] else []) ++
  (match r.esc with | .none => [] | .e0F => [0x0F] | .e0F38 => [0x0F, 0x38] | .e0F3A => [0x0F, 0x3A]) ++
  (match r.opc2, p with
    | none, none => [r.opc1]
    | none, some k => [pattern53 r.opc1 k]
    | some b, none => [r.opc1, b]
    | some b, some k => [r.opc1, pattern53 b k])

/-! ### The addressing forms -/

/-- The memory operands CORE can encode: an index is a GPL register whose code mod 8 is not 4, with scale 1, 2, 4 or 8,
and not beside the IP base (R197, R198, R199, R203); the base is absent, the IP sentinel, or a GPL register (R204). -/
def MemoryLegal (rip : Code) (op : Desc) : Prop :=
  (memIndex op ≠ 0 →
    0x100 ≤ (memIndex op).toNat ∧ (memIndex op).toNat ≤ 0x10F ∧ (memIndex op).toNat % 8 ≠ 4 ∧
    (memScale op = 1 ∨ memScale op = 2 ∨ memScale op = 4 ∨ memScale op = 8) ∧ (memBase op = rip → memBase op = 0)) ∧
  (memBase op = 0 ∨ memBase op = rip ∨ (0x100 ≤ (memBase op).toNat ∧ (memBase op).toNat ≤ 0x10F))

/-- A destination CORE can encode: any register, or a legal memory operand. -/
def AddressLegal (rip : Code) (op : Desc) : Prop := isMem op = true → MemoryLegal rip op

/-- The logarithm of a legal scale (R67). -/
def scaleLog (sc : BitVec 4) : BitVec 2 :=
  if sc = 8 then 3 else if sc = 4 then 2 else if sc = 2 then 1 else 0

/-- The SIB byte of a memory operand with base field `b`: without an index the fields are 0 and 4 (R67, R74). -/
def layoutSib (op : Desc) (b : BitVec 3) : Byte :=
  if memIndex op = 0 then pattern233 0 4 b
  else pattern233 (scaleLog (memScale op)) ((memIndex op).setWidth 3) b

/-- Whether a 64-bit displacement lies in [-128, 127]. -/
abbrev Short (d : BitVec 64) : Prop := -128 ≤ d.toInt ∧ d.toInt ≤ 127

/-- `mod` of a base register with displacement `d` (R74, R205, R206). -/
def layoutMod (low : BitVec 3) (d : BitVec 64) : BitVec 2 :=
  if Short d then (if d = 0 ∧ low ≠ 5 then 0 else 1) else 2

/-- The displacement bytes of that `mod` (R68). -/
def layoutDisp (mod : BitVec 2) (d : BitVec 64) : List Byte :=
  if mod = 0 then [] else if mod = 1 then le d 1 else le d 4

/-- Fields 9 to 11 of a legal destination with reg field `r`: the five addressing forms. -/
def layoutAddress (rip : Code) (r : BitVec 3) (op : Desc) : List Byte :=
  if isReg op = true then [pattern233 3 r (op.setWidth 3)]
  else if memBase op = 0 then [pattern233 0 r 4, layoutSib op 5] ++ le (memDisp op) 4
  else if memBase op = rip then [pattern233 0 r 5] ++ le (memDisp op) 4
  else
    let low : BitVec 3 := (memBase op).setWidth 3
    let mod := layoutMod low (memDisp op)
    if memIndex op = 0 ∧ low ≠ 4 then [pattern233 mod r low] ++ layoutDisp mod (memDisp op)
    else [pattern233 mod r 4, layoutSib op low] ++ layoutDisp mod (memDisp op)

/-! ### Flags in closed form -/

/-- The REX.X bit a destination gives: its index has code 8 or above (R194). -/
def destX (op : Desc) : Bool := isMem op && decide (memIndex op ≠ 0) && (memIndex op).getLsbD 3

/-- The REX.B bit a destination gives: the register, or a GPL base, has code 8 or above (R193, R194, D12). -/
def destB (rip : Code) (op : Desc) : Bool :=
  if isMem op then
    decide (memBase op ≠ 0) && decide (memBase op ≠ rip) && decide (0x100 ≤ (memBase op).toNat) &&
      decide ((memBase op).toNat ≤ 0x10F) && (memBase op).getLsbD 3
  else op.getLsbD 3

/-- The flags of a destination `dst` beside a register operand `r`. -/
def pairFlags (rip : Code) (f : Flags) (dst r : Desc) : Flags :=
  { f with r := f.r || r.getLsbD 3, x := f.x || destX dst, b := f.b || destB rip dst }

/-- The flags of a destination beside a constant. -/
def soloFlags (rip : Code) (f : Flags) (dst : Desc) : Flags :=
  { f with x := f.x || destX dst, b := f.b || destB rip dst }

/-- The flags of a register in the opcode. -/
def opcFlags (f : Flags) (r : Desc) : Flags := { f with b := f.b || r.getLsbD 3 }

/-- A descriptor of the legacy high-byte class (R25). -/
abbrev HighByte (op : Desc) : Prop := 0x204 ≤ op.toNat ∧ op.toNat ≤ 0x207

/-- No legacy high byte stands beside a REX byte (R74, R172, R195). -/
abbrev NoClash (f : Flags) (ops : List Desc) : Prop := AnyRex f → ∀ op ∈ ops, ¬ HighByte op

/-! ### Immediates -/

/-- An immediate CORE can write: a legal width the value fits as a signed number (R150, R151). -/
abbrev ImmLegal (v : BitVec 64) (w : Nat) : Prop := LegalWidth w ∧ InSignedRange v w

/-- The displacement of format D whose bytes before the immediate number `n`: 0 for the sentinel, else the target less the
address after the whole instruction (R153). -/
def layoutRel (jmp c target : Addr) (n w : Nat) : BitVec 64 :=
  if target = jmp then 0 else target - (c + BitVec.ofNat 64 (n + w))

/-! ### Whole transactions, by format -/

/-- A transaction's outcome in closed form: `some S` for the bytes it commits, `none` when it fails. One arm per row of the
format table (R73), in terms of the record, the request, the flags after R234 and R235, the sentinels and the cursor. -/
structure Job where
  rip    : Code
  jmp    : Addr
  cur0   : Addr
  record : Record
  req    : Req
  flags  : Flags

/-- The job in a state's working registers. -/
def State.job (s : State) : Job :=
  { rip := s.params.ripSentinel, jmp := s.params.jmpSentinel, cur0 := s.work.cur0, record := s.work.record,
    req := s.work.req, flags := s.work.flags }

/-- Prefixes and opcode of a format without a register in the opcode. -/
def Job.head (j : Job) (f : Flags) : List Byte := layoutPrefixes j.req ++ layoutOpcode j.record f none

/-- Prefixes and opcode with a register in the last opcode byte. -/
def Job.regHead (j : Job) (r : Desc) : List Byte :=
  layoutPrefixes j.req ++ layoutOpcode j.record (opcFlags j.flags r) (some (r.setWidth 3))

/-- Prefixes, opcode and address of a destination with a reg-field constant. -/
def Job.solo (j : Job) (dst : Desc) (k : BitVec 3) : List Byte :=
  j.head (soloFlags j.rip j.flags dst) ++ layoutAddress j.rip k dst

/-- Prefixes, opcode and address of a destination with a register operand. -/
def Job.pair (j : Job) (dst r : Desc) : List Byte :=
  j.head (pairFlags j.rip j.flags dst r) ++ layoutAddress j.rip (r.setWidth 3) dst

/-- The destination beside a reg-field constant can be encoded. -/
def Job.SoloLegal (j : Job) (dst : Desc) : Prop :=
  AddressLegal j.rip dst ∧ NoClash (soloFlags j.rip j.flags dst) [dst]

/-- The destination beside a register operand can be encoded. -/
def Job.PairLegal (j : Job) (dst r : Desc) : Prop :=
  isReg r = true ∧ AddressLegal j.rip dst ∧ NoClash (pairFlags j.rip j.flags dst r) [dst, r]

/-- The register can be folded into the opcode. -/
def Job.RegLegal (j : Job) (r : Desc) : Prop := isReg r = true ∧ NoClash (opcFlags j.flags r) [r]

/-- The displacement of the job's format D. -/
def Job.rel (j : Job) : BitVec 64 :=
  layoutRel j.jmp j.cur0 j.req.op0 (j.head j.flags).length j.record.immsz

/-- When a transaction succeeds, by format tag: the negations of the causes of R281. -/
def Job.Legal (j : Job) : Prop :=
  match j.record.fmt.toNat with
  | 0 => True
  | 1 => j.record.regc ≠ none ∧ j.SoloLegal j.req.op0
  | 2 => j.record.regc ≠ none ∧ j.SoloLegal j.req.op0 ∧ ImmLegal j.req.op1 j.record.immsz
  | 3 => j.PairLegal j.req.op0 j.req.op1
  | 4 => j.PairLegal j.req.op1 j.req.op0
  | 5 => j.PairLegal j.req.op0 j.req.op1 ∧ ImmLegal j.req.op2 j.record.immsz
  | 6 => j.PairLegal j.req.op1 j.req.op0 ∧ ImmLegal j.req.op2 j.record.immsz
  | 7 => ImmLegal j.req.op0 j.record.immsz
  | 8 => ImmLegal j.req.op1 j.record.immsz
  | 9 => j.RegLegal j.req.op0
  | 10 => j.RegLegal j.req.op0 ∧ ImmLegal j.req.op1 j.record.immsz
  | 11 => j.RegLegal j.req.op1
  | 12 => ImmLegal j.rel j.record.immsz
  | _ => False

/-- What a legal transaction commits, by format tag (R60, R73). -/
def Job.bytes (j : Job) : List Byte :=
  match j.record.fmt.toNat with
  | 0 => j.head j.flags
  | 1 => j.solo j.req.op0 (j.record.regc.getD 0)
  | 2 => j.solo j.req.op0 (j.record.regc.getD 0) ++ le j.req.op1 j.record.immsz
  | 3 => j.pair j.req.op0 j.req.op1
  | 4 => j.pair j.req.op1 j.req.op0
  | 5 => j.pair j.req.op0 j.req.op1 ++ le j.req.op2 j.record.immsz
  | 6 => j.pair j.req.op1 j.req.op0 ++ le j.req.op2 j.record.immsz
  | 7 => j.head j.flags ++ le j.req.op0 j.record.immsz
  | 8 => j.head j.flags ++ le j.req.op1 j.record.immsz
  | 9 => j.regHead j.req.op0
  | 10 => j.regHead j.req.op0 ++ le j.req.op1 j.record.immsz
  | 11 => j.regHead j.req.op1
  | 12 => j.head j.flags ++ le j.rel j.record.immsz
  | _ => []

/-- The destination of the job's ModRM byte: `op1` for RM and RMI, else `op0` (R73). -/
def Job.dest (j : Job) : Desc :=
  if j.record.fmt.toNat = 4 ∨ j.record.fmt.toNat = 6 then j.req.op1 else j.req.op0

/-- The final flags of a job, by format tag (R75). -/
def Job.finalFlags (j : Job) : Flags :=
  match j.record.fmt.toNat with
  | 1 | 2 => soloFlags j.rip j.flags j.req.op0
  | 3 | 5 => pairFlags j.rip j.flags j.req.op0 j.req.op1
  | 4 | 6 => pairFlags j.rip j.flags j.req.op1 j.req.op0
  | 9 | 10 => opcFlags j.flags j.req.op0
  | 11 => opcFlags j.flags j.req.op1
  | _ => j.flags

/-- The job a request gives, when its record is `record` (R230, R231, R234, R235). -/
def State.jobOf (s : State) (q : Req) (record : Record) : Job :=
  { rip := s.params.ripSentinel, jmp := s.params.jmpSentinel, cur0 := s.cur, record := record, req := q,
    flags := mandatoryRex record.mask8 q (Flags.initial record.w) }

/-- The record the table holds for a mnemonic: that of the first pair. -/
def tableRecord : List (Nat × Record) → Nat → Option Record
  | [], _ => none
  | p :: ps, m => if p.1 = m then some p.2 else tableRecord ps m

/-! ### Length (R75) -/

/-- `esclen` of rules R75 and R133. -/
def escLen : Esc → Nat
  | .none => 0
  | .e0F => 1
  | .e0F38 => 2
  | .e0F3A => 2

/-- The length formula of rule R75 for the final flags `f`, a ModRM part of `m` bytes and an immediate of `n` bytes. -/
def lengthFormula (q : Req) (r : Record) (f : Flags) (m n : Nat) : Nat :=
  (if q.addr32 then 1 else 0) + (if q.seg = .none then 0 else 1) + (if r.mp = .none then 0 else 1) +
    (if AnyRex f then 1 else 0) + escLen r.esc + 1 +
    (if r.opc2 = none then 0 else 1) + m + n

end Sys2Proof.Machine
end

