-- ==== Sys2Proof/Certificates/Slice0/Obligations.lean ====
section
/-! DEFINITION. The statements for the provers. Each is about every state, every request and every table; the free values
are never pinned down. -/

open Sys2Proof Sys2Proof.Machine

/-! ### Encoding -/

/-- Decoding the word of a well-formed row gives the row back, with every field at every value its encoding admits (all 38
rows; spec/30_encoding.md R61 to R71, R73). The words themselves are the model's framing of those layouts (log 14). -/
def Obligations.EncodedRowDecodesToItself : Prop :=
  ∀ i : Instr, WellFormed i → decode (encode i) = .ok i

/-- Each word has one meaning: a word the decoder reads is the word of the row it reads, and that row is well-formed. That a
word has one meaning is the model's choice: it frames a word as a tag or as the bytes of a named field, where a bare byte
stands for several rows of the spec (log 14). -/
def Obligations.DecodedWordEncodesBack : Prop :=
  ∀ (word : RowWord) (i : Instr), decode word = .ok i → WellFormed i ∧ encode i = word

/-- Words written out from spec/opcode_table.json and 95_test_vectors.md, one or more per family, and what they stand for.
The bit patterns are the spec's (R61 to R71, R73); their framing as tags, named fields and byte lists is the model's choice
(log 14). -/
def Obligations.WrittenWordsDecode : Prop :=
  decode (.tag 0x3) = .ok .fmtMr ∧
  decode (.tag 0xC) = .ok .fmtD ∧
  decode (.tag 0xD) = .ok (.fmtUnrealized 13) ∧
  decode (.field .addr32 [0b01100111]) = .ok .prefixAddr32 ∧
  decode (.field .seg [0b01100101]) = .ok .prefixSegGs ∧
  decode (.field .mp [0b11110010]) = .ok .prefixMpF2 ∧
  decode (.field .rex [0b01001101]) = .ok (.rex true true false true) ∧
  decode (.field .esc [0b00001111]) = .ok .esc0F ∧
  decode (.field .esc2 [0b00111010]) = .ok .esc3A ∧
  decode (.field .opcReg [0b10111001]) = .ok (.opc1Reg 0b10111 0b001) ∧
  decode (.field .modrm [0b01000100]) = .ok (.modrm 1 0 4) ∧
  decode (.field .sib [0b11001101]) = .ok (.sib 3 1 5) ∧
  decode (.field .disp [0x78, 0x56, 0x34, 0x12]) = .ok (.disp32 0x12345678) ∧
  decode (.field .imm [0x80]) = .ok (.imm 1 0xFFFFFFFFFFFFFF80) ∧
  decode (.field .operand [0x0D, 0x01, 0, 0, 0, 0, 0, 0]) = .ok (.operandReg 0x10 13) ∧
  decode (.field .operand [0xFF, 0xFF, 0xFF, 0xFF, 0x0C, 0xF1, 0x10, 0x88]) =
    .ok (.operandMem 0 8 0x10F 0x10C 0xFFFFFFFF) ∧
  decode (.field .rex [0x50]) = .error (.notThisField .rex 0x50)

/-- A memory descriptor built as rule R113 builds it is a memory operand whose fields read back, with bits 62:60 zero. -/
def Obligations.BuiltMemoryOperandReadsBack : Prop :=
  ∀ (b : Code) (sc : BitVec 4) (i : Code) (d : BitVec 32),
    isMem (memOperand b sc i d) = true ∧ isReg (memOperand b sc i d) = false ∧
    memBase (memOperand b sc i d) = b ∧ memScale (memOperand b sc i d) = sc ∧ memIndex (memOperand b sc i d) = i ∧
    memDisp (memOperand b sc i d) = d.signExtend 64 ∧ (memOperand b sc i d).extractLsb' 60 3 = 0

/-- Rules R100, R101, R102, R103, R110: the tag test splits all descriptors; the classes are exactly the ranges the rules
give, so they are disjoint and hold no memory descriptor; the register code is bits [3:0], its field value bits [2:0] and
its REX contribution bit 3; and the mandatory-REX trigger is the range [0x104, 0x107]. -/
def Obligations.DescriptorPredicates : Prop :=
  (∀ op : Desc, isMem op = !isReg op) ∧
  (∀ op : Desc, isMem op = true ↔ 2 ^ 63 ≤ op.toNat) ∧
  (∀ op : Desc, isGpl op = true ↔ 0x100 ≤ op.toNat ∧ op.toNat ≤ 0x10F) ∧
  (∀ op : Desc, isGph op = true ↔ 0x204 ≤ op.toNat ∧ op.toNat ≤ 0x207) ∧
  (∀ op : Desc, isRex8Gpl op = true ↔ 0x104 ≤ op.toNat ∧ op.toNat ≤ 0x107) ∧
  (∀ op : Desc, (regCode op).toNat = op.toNat % 16 ∧ (lo3 op).toNat = op.toNat % 8 ∧
    (hi1 op = true ↔ 8 ≤ op.toNat % 16)) ∧
  (∀ i : BitVec 4, isGpl (gplDesc i) = true ∧ regCode (gplDesc i) = i) ∧
  (∀ j : BitVec 2, isGph (gphDesc j) = true ∧ (regCode (gphDesc j)).toNat = 4 + j.toNat)

/-- Rules R108 and R109: a 12-bit code is GPL exactly on [0x100, 0x10F]; a base code is absent, the sentinel, a GPL
register or bad, tried in that order; and under decision D18 the order is immaterial. -/
def Obligations.BaseCodeClassification : Prop :=
  (∀ c : Code, codeIsGpl c = true ↔ 0x100 ≤ c.toNat ∧ c.toNat ≤ 0x10F) ∧
  (∀ c : Code, (codeLo3 c).toNat = c.toNat % 8 ∧ (codeHi1 c = true ↔ 8 ≤ c.toNat % 16)) ∧
  (∀ rip c : Code,
    (c = 0 → baseKind rip c = .noBase) ∧
    (c ≠ 0 → c = rip → baseKind rip c = .ripRel) ∧
    (c ≠ 0 → c ≠ rip → codeIsGpl c = true → baseKind rip c = .gplBase) ∧
    (c ≠ 0 → c ≠ rip → codeIsGpl c = false → baseKind rip c = .badBase)) ∧
  (∀ p : Params, p.wf → baseKind p.ripSentinel p.ripSentinel = .ripRel ∧ codeIsGpl p.ripSentinel = false ∧
    ∀ c : Code, codeIsGpl c = true → baseKind p.ripSentinel c = .gplBase)

/-- Rule R150: the fit check is the sign-extension test, which below width 8 is the signed range; with the rule's corner
values. -/
def Obligations.FitCheckIsSignedRange : Prop :=
  (∀ (v : BitVec 64) (w : Nat), w = 1 ∨ w = 2 ∨ w = 4 →
    (fits v w = true ↔ (v.setWidth (8 * w)).signExtend 64 = v) ∧
    (fits v w = true ↔ -(2 ^ (8 * w - 1) : Int) ≤ v.toInt ∧ v.toInt ≤ 2 ^ (8 * w - 1) - 1)) ∧
  (∀ v : BitVec 64, fits v 8 = true) ∧
  (fits 127 1 = true ∧ fits (-128) 1 = true ∧ fits 128 1 = false ∧ fits (-129) 1 = false ∧
    fits 32767 2 = true ∧ fits 32768 2 = false ∧ fits 65535 2 = false ∧ fits (-1) 2 = true ∧
    fits 0x7FFFFFFF 4 = true ∧ fits 0x80000000 4 = false)

/-- Rules R44 and R10: an n-byte field has n bytes, byte `k` holds bits `8k+7:8k`, and for the widths CORE writes the
field of a value that fits holds the value, sign-extended. -/
def Obligations.FieldsAreLittleEndian : Prop :=
  (∀ (v : BitVec 64) (n k : Nat) (h : k < (le v n).length), (le v n)[k] = v.extractLsb' (8 * k) 8) ∧
  (∀ (v : BitVec 64) (n : Nat), (le v n).length = n) ∧
  (∀ (v : BitVec 64) (w : Nat), LegalWidth w → fits v w = true → sextBytes (leValue (le v w)) w = v)

/-! ### The emitted fields, one row of the opcode table each -/

/-- PREFIX_ADDR32 and the six PREFIX_SEG rows (R62, R63, R236, R237): each stages its byte exactly when the request asks for
it, and leaves everything else. That the rows run on the working registers is the model's choice (log 13). -/
def Obligations.PrefixRowsFollowTheRequest : Prop :=
  ∀ (s : State) (i : Instr) (asked : Prop) (b : Byte),
    (i = .prefixAddr32 ∧ (asked ↔ s.work.req.addr32 = true) ∧ b = 0x67 ∨
      i = .prefixSegEs ∧ (asked ↔ s.work.req.seg = .es) ∧ b = 0x26 ∨
      i = .prefixSegCs ∧ (asked ↔ s.work.req.seg = .cs) ∧ b = 0x2E ∨
      i = .prefixSegSs ∧ (asked ↔ s.work.req.seg = .ss) ∧ b = 0x36 ∨
      i = .prefixSegDs ∧ (asked ↔ s.work.req.seg = .ds) ∧ b = 0x3E ∨
      i = .prefixSegFs ∧ (asked ↔ s.work.req.seg = .fs) ∧ b = 0x64 ∨
      i = .prefixSegGs ∧ (asked ↔ s.work.req.seg = .gs) ∧ b = 0x65) →
    ∃ t, exec i s = .next t ∧ KeepsAllButStaging s t ∧ t.work.modrm = s.work.modrm ∧ t.work.view = s.work.view ∧
      (asked → t.work.staged = s.work.staged ++ [b]) ∧ (¬ asked → t.work.staged = s.work.staged)

/-- The three PREFIX_MP rows and the three ESC rows (R61, R65, R132): each stages its byte exactly when the record's
selector calls for it. That the rows run on the working registers is the model's choice (log 13). -/
def Obligations.SelectorRowsFollowTheRecord : Prop :=
  ∀ (s : State) (i : Instr) (asked : Prop) (b : Byte),
    (i = .prefixMp66 ∧ (asked ↔ s.work.record.mp = .p66) ∧ b = 0x66 ∨
      i = .prefixMpF2 ∧ (asked ↔ s.work.record.mp = .pF2) ∧ b = 0xF2 ∨
      i = .prefixMpF3 ∧ (asked ↔ s.work.record.mp = .pF3) ∧ b = 0xF3 ∨
      i = .esc0F ∧ (asked ↔ s.work.record.esc ≠ .none) ∧ b = 0x0F ∨
      i = .esc38 ∧ (asked ↔ s.work.record.esc = .e0F38) ∧ b = 0x38 ∨
      i = .esc3A ∧ (asked ↔ s.work.record.esc = .e0F3A) ∧ b = 0x3A) →
    ∃ t, exec i s = .next t ∧ KeepsAllButStaging s t ∧ t.work.modrm = s.work.modrm ∧ t.work.view = s.work.view ∧
      (asked → t.work.staged = s.work.staged ++ [b]) ∧ (¬ asked → t.work.staged = s.work.staged)

/-- REX (R64, R131): the byte `0100WRXB`, staged exactly when `rex_req` or one of W, R, X, B is set; `rex_req` alone gives
0x40. The four bits are the row's own: the model's choice (log 13, log 21). -/
def Obligations.RexRowStandsWithAnyFlag : Prop :=
  ∀ (s : State) (w r x b : Bool),
    ∃ t, exec (.rex w r x b) s = .next t ∧ KeepsAllButStaging s t ∧ t.work.modrm = s.work.modrm ∧
      t.work.view = s.work.view ∧
      (AnyRex { s.work.flags with w := w, r := r, x := x, b := b } →
        t.work.staged = s.work.staged ++
          [((4 : BitVec 4) ++ BitVec.ofBool w ++ BitVec.ofBool r ++ BitVec.ofBool x ++ BitVec.ofBool b : BitVec 8)]) ∧
      (¬ AnyRex { s.work.flags with w := w, r := r, x := x, b := b } → t.work.staged = s.work.staged) ∧
      (s.work.flags.rexReq = true → w = false → r = false → x = false → b = false →
        t.work.staged = s.work.staged ++ [0x40])

/-- OPC1 always, OPC2 exactly when the record has one, and OPC1_REG exactly in the formats O, OI and AO whose last opcode
byte is OPC1 (R60, R79, R132, R134). That last condition (log 20), and that each row stages the byte of its own word, not
compared with the record's or the register's (log 26), are the model's choices. -/
def Obligations.OpcodeByteRows : Prop :=
  ∀ (s : State) (o p : Byte) (hi : BitVec 5) (r : BitVec 3),
    (∃ t, exec (.opc1 o) s = .next t ∧ KeepsAllButStaging s t ∧ t.work.modrm = s.work.modrm ∧
      t.work.view = s.work.view ∧ t.work.staged = s.work.staged ++ [o]) ∧
    (∃ t, exec (.opc2 p) s = .next t ∧ KeepsAllButStaging s t ∧ t.work.modrm = s.work.modrm ∧
      t.work.view = s.work.view ∧
      (s.work.record.opc2 ≠ none → t.work.staged = s.work.staged ++ [p]) ∧
      (s.work.record.opc2 = none → t.work.staged = s.work.staged)) ∧
    (∃ t, exec (.opc1Reg hi r) s = .next t ∧ KeepsAllButStaging s t ∧ t.work.modrm = s.work.modrm ∧
      t.work.view = s.work.view ∧
      ((9 ≤ s.work.record.fmt.toNat ∧ s.work.record.fmt.toNat ≤ 11) ∧ s.work.record.opc2 = none →
        t.work.staged = s.work.staged ++ [(hi ++ r : BitVec 8)]) ∧
      (¬ ((9 ≤ s.work.record.fmt.toNat ∧ s.work.record.fmt.toNat ≤ 11) ∧ s.work.record.opc2 = none) →
        t.work.staged = s.work.staged))

/-- MODRM `mmrrrbbb` exactly in the formats M, MI, MR, RM, MRI and RMI, after which the transaction's ModRM byte is this
one; SIB `ssiiibbb` exactly when that byte has `mod ≠ 3` and `rm = 4` (R60, R66, R67, R208, R209). That the SIB row reads
the byte the row MODRM latched, and stages nothing before there is one, is the model's choice (log 22), as is that each row
stages the bits of its own word (log 26). -/
def Obligations.ModrmAndSibRows : Prop :=
  ∀ (s : State) (m sc : BitVec 2) (g rm idx b : BitVec 3),
    (∃ t, exec (.modrm m g rm) s = .next t ∧ KeepsAllButStaging s t ∧ t.work.view = s.work.view ∧
      (1 ≤ s.work.record.fmt.toNat ∧ s.work.record.fmt.toNat ≤ 6 →
        t.work.staged = s.work.staged ++ [(m ++ g ++ rm : BitVec 8)] ∧ t.work.modrm = some (m ++ g ++ rm : BitVec 8)) ∧
      (¬ (1 ≤ s.work.record.fmt.toNat ∧ s.work.record.fmt.toNat ≤ 6) →
        t.work.staged = s.work.staged ∧ t.work.modrm = s.work.modrm)) ∧
    (∃ t, exec (.sib sc idx b) s = .next t ∧ KeepsAllButStaging s t ∧ t.work.modrm = s.work.modrm ∧
      t.work.view = s.work.view ∧
      ((∃ (m' : BitVec 2) (g' : BitVec 3), m' ≠ 3 ∧ s.work.modrm = some (m' ++ g' ++ (4 : BitVec 3) : BitVec 8)) →
        t.work.staged = s.work.staged ++ [(sc ++ idx ++ b : BitVec 8)]) ∧
      (¬ (∃ (m' : BitVec 2) (g' : BitVec 3), m' ≠ 3 ∧ s.work.modrm = some (m' ++ g' ++ (4 : BitVec 3) : BitVec 8)) →
        t.work.staged = s.work.staged))

/-- DISP8 and DISP32 (R68, R210): after the transaction's ModRM byte, four bytes when the operand looked at has no base or
the IP base, else by `mod`: none for 0 and 3, one for 1, four for 2. That the rows read the latched ModRM byte and the
descriptor looked at last, and stage nothing while there is no ModRM byte, is the model's choice (log 22), as is that each row
stages the bytes of its own word (log 26). -/
def Obligations.DisplacementRowsFollowMod : Prop :=
  ∀ (s : State) (d : Byte) (d' : BitVec 32) (m : BitVec 2) (g rm : BitVec 3) (forced : Bool),
    (forced = true ↔ ∃ b k i sc x, s.work.view = .mem b k i sc x ∧ (k = .noBase ∨ k = .ripRel)) →
    (∃ t, exec (.disp8 d) s = .next t ∧ KeepsAllButStaging s t ∧ t.work.modrm = s.work.modrm ∧
      t.work.view = s.work.view ∧
      (s.work.modrm = some (m ++ g ++ rm : BitVec 8) →
        t.work.staged = s.work.staged ++ (if forced = false ∧ m = 1 then [d] else [])) ∧
      (s.work.modrm = none → t.work.staged = s.work.staged)) ∧
    (∃ t, exec (.disp32 d') s = .next t ∧ KeepsAllButStaging s t ∧ t.work.modrm = s.work.modrm ∧
      t.work.view = s.work.view ∧
      (s.work.modrm = some (m ++ g ++ rm : BitVec 8) →
        t.work.staged = s.work.staged ++ (if forced = true ∨ m = 2 then
          [d'.extractLsb' 0 8, d'.extractLsb' 8 8, d'.extractLsb' 16 8, d'.extractLsb' 24 8] else [])) ∧
      (s.work.modrm = none → t.work.staged = s.work.staged))

/-- IMM (R69, R150, R151): in the formats MI, MRI, RMI, I, AI, OI and D a value of a legal width that fits is staged, and
anything else fails the transaction; in the other formats nothing is staged. The row's use of its own width and value is
the model's choice (log 23), and so is the empty staging list after the failure (log 12). -/
def Obligations.ImmediateRowChecksAndStages : Prop :=
  ∀ (s : State) (w : Nat) (v : BitVec 64),
    ∃ t, exec (.imm w v) s = .next t ∧
      (s.work.record.fmt.toNat ∈ [2, 5, 6, 7, 8, 10, 12] → ImmLegal v w →
        KeepsAllButStaging s t ∧ t.work.modrm = s.work.modrm ∧ t.work.view = s.work.view ∧
          t.work.staged = s.work.staged ++ le v w) ∧
      (s.work.record.fmt.toNat ∈ [2, 5, 6, 7, 8, 10, 12] → ¬ ImmLegal v w →
        t.ok = false ∧ t.cur = s.work.cur0 ∧ (∀ a, Outside a s.work.cur0 22 → t.buf.read a = s.buf.read a) ∧
          t.work.staged = [] ∧ t.params = s.params ∧ t.env = s.env ∧ t.inbox = s.inbox) ∧
      (s.work.record.fmt.toNat ∉ [2, 5, 6, 7, 8, 10, 12] →
        KeepsAllButStaging s t ∧ t.work.modrm = s.work.modrm ∧ t.work.view = s.work.view ∧
          t.work.staged = s.work.staged)

/-- OPERAND_REG and OPERAND_MEM (R70, R71, R100 to R110, R112): the decoder reads the fields of either descriptor, whatever
they are, never fails, and changes nothing else. That the result stays in a register of its own is the model's choice
(log 13, log 22). -/
def Obligations.DescriptorRowsNeverFail : Prop :=
  ∀ (s : State) (cls : BitVec 59) (code : BitVec 4) (un : BitVec 3) (sc : BitVec 4) (i b : Code) (d : BitVec 32),
    (∃ t, exec (.operandReg cls code) s = .next t ∧ KeepsAllButStaging s t ∧ t.work.staged = s.work.staged ∧
      t.work.modrm = s.work.modrm ∧
      t.work.view = .reg code (decide (cls.toNat = 0x10))
        (decide (cls.toNat = 0x20 ∧ 4 ≤ code.toNat ∧ code.toNat ≤ 7))
        (decide (cls.toNat = 0x10 ∧ 4 ≤ code.toNat ∧ code.toNat ≤ 7))) ∧
    (∃ t, exec (.operandMem un sc i b d) s = .next t ∧ KeepsAllButStaging s t ∧ t.work.staged = s.work.staged ∧
      t.work.modrm = s.work.modrm ∧ t.work.view = .mem b (baseKind s.params.ripSentinel b) i sc (d.signExtend 64))

/-! ### The formats: each completes with the bytes of its closed form -/

/-- FMT_NP (R240) completes in every state, with the prefixes and the opcode bytes alone. -/
def Obligations.FormatNpEmitsOpcode : Prop :=
  ∀ s : State, exec .fmtNp s =
    .next (s.commit (layoutPrefixes s.work.req ++ layoutOpcode s.work.record s.work.flags none))

/-- FMT_M and FMT_MI (R241, R242, R233): with a reg-field constant and a destination that can be encoded (and, for MI, an
immediate in `op1` that fits) they complete, the constant in ModRM.reg; otherwise the transaction fails. -/
def Obligations.FormatsMAndMiEmitConstantForm : Prop :=
  ∀ s : State,
    (∀ k : BitVec 3, s.work.record.regc = some k → s.job.SoloLegal s.work.req.op0 →
      exec .fmtM s = .next (s.commit (s.job.solo s.work.req.op0 k)) ∧
      (ImmLegal s.work.req.op1 s.work.record.immsz →
        exec .fmtMi s = .next (s.commit (s.job.solo s.work.req.op0 k ++ le s.work.req.op1 s.work.record.immsz)))) ∧
    (s.work.record.regc = none ∨ ¬ s.job.SoloLegal s.work.req.op0 → exec .fmtM s = .next s.fail) ∧
    (s.work.record.regc = none ∨ ¬ s.job.SoloLegal s.work.req.op0 ∨ ¬ ImmLegal s.work.req.op1 s.work.record.immsz →
      exec .fmtMi s = .next s.fail)

/-- FMT_MR and FMT_RM (R243, R244): the same form with the operands' roles exchanged. A pair that can be encoded is committed,
any other fails. -/
def Obligations.FormatsMrAndRmEmitPairForm : Prop :=
  ∀ s : State,
    (s.job.PairLegal s.work.req.op0 s.work.req.op1 →
      exec .fmtMr s = .next (s.commit (s.job.pair s.work.req.op0 s.work.req.op1))) ∧
    (¬ s.job.PairLegal s.work.req.op0 s.work.req.op1 → exec .fmtMr s = .next s.fail) ∧
    (s.job.PairLegal s.work.req.op1 s.work.req.op0 →
      exec .fmtRm s = .next (s.commit (s.job.pair s.work.req.op1 s.work.req.op0))) ∧
    (¬ s.job.PairLegal s.work.req.op1 s.work.req.op0 → exec .fmtRm s = .next s.fail)

/-- FMT_MRI and FMT_RMI (R245, R246): a pair and an immediate in `op2`; without either the transaction fails. -/
def Obligations.FormatsMriAndRmiEmitPairThenImmediate : Prop :=
  ∀ s : State,
    (s.job.PairLegal s.work.req.op0 s.work.req.op1 → ImmLegal s.work.req.op2 s.work.record.immsz →
      exec .fmtMri s =
        .next (s.commit (s.job.pair s.work.req.op0 s.work.req.op1 ++ le s.work.req.op2 s.work.record.immsz))) ∧
    (¬ (s.job.PairLegal s.work.req.op0 s.work.req.op1 ∧ ImmLegal s.work.req.op2 s.work.record.immsz) →
      exec .fmtMri s = .next s.fail) ∧
    (s.job.PairLegal s.work.req.op1 s.work.req.op0 → ImmLegal s.work.req.op2 s.work.record.immsz →
      exec .fmtRmi s =
        .next (s.commit (s.job.pair s.work.req.op1 s.work.req.op0 ++ le s.work.req.op2 s.work.record.immsz))) ∧
    (¬ (s.job.PairLegal s.work.req.op1 s.work.req.op0 ∧ ImmLegal s.work.req.op2 s.work.record.immsz) →
      exec .fmtRmi s = .next s.fail)

/-- FMT_I and FMT_AI (R247, R248): the opcode and the immediate of `op0`, or of `op1`, when it can be written; else the
transaction fails. -/
def Obligations.FormatsIAndAiEmitOpcodeThenImmediate : Prop :=
  ∀ s : State,
    (ImmLegal s.work.req.op0 s.work.record.immsz →
      exec .fmtI s = .next (s.commit (s.job.head s.work.flags ++ le s.work.req.op0 s.work.record.immsz))) ∧
    (¬ ImmLegal s.work.req.op0 s.work.record.immsz → exec .fmtI s = .next s.fail) ∧
    (ImmLegal s.work.req.op1 s.work.record.immsz →
      exec .fmtAi s = .next (s.commit (s.job.head s.work.flags ++ le s.work.req.op1 s.work.record.immsz))) ∧
    (¬ ImmLegal s.work.req.op1 s.work.record.immsz → exec .fmtAi s = .next s.fail)

/-- FMT_O, FMT_AO and FMT_OI (R249, R250, R251): the register, `op0` or `op1`, in the low 3 bits of the last opcode byte and
in REX.B; for OI the immediate of `op1` follows. What cannot be encoded fails. -/
def Obligations.FormatsOAoOiFoldRegister : Prop :=
  ∀ s : State,
    (s.job.RegLegal s.work.req.op0 → exec .fmtO s = .next (s.commit (s.job.regHead s.work.req.op0))) ∧
    (¬ s.job.RegLegal s.work.req.op0 → exec .fmtO s = .next s.fail) ∧
    (s.job.RegLegal s.work.req.op1 → exec .fmtAo s = .next (s.commit (s.job.regHead s.work.req.op1))) ∧
    (¬ s.job.RegLegal s.work.req.op1 → exec .fmtAo s = .next s.fail) ∧
    (s.job.RegLegal s.work.req.op0 → ImmLegal s.work.req.op1 s.work.record.immsz →
      exec .fmtOi s = .next (s.commit (s.job.regHead s.work.req.op0 ++ le s.work.req.op1 s.work.record.immsz))) ∧
    (¬ (s.job.RegLegal s.work.req.op0 ∧ ImmLegal s.work.req.op1 s.work.record.immsz) → exec .fmtOi s = .next s.fail)

/-- FMT_D (R252, R153): the opcode and the displacement of `op0` from the end of the instruction, when it fits; else the
transaction fails. -/
def Obligations.FormatDEmitsRelativeDisplacement : Prop :=
  ∀ s : State,
    (ImmLegal s.job.rel s.work.record.immsz →
      exec .fmtD s = .next (s.commit (s.job.head s.work.flags ++ le s.job.rel s.work.record.immsz))) ∧
    (¬ ImmLegal s.job.rel s.work.record.immsz → exec .fmtD s = .next s.fail)

/-- FMT_UNREALIZED (R232): whatever the tag and the state, the transaction fails: `ok` is 0, the cursor is the captured one,
no byte outside the 22 at it changes. -/
def Obligations.UnrealizedFormatsFail : Prop :=
  ∀ (s : State) (tag : BitVec 8),
    ∃ t, exec (.fmtUnrealized tag) s = .next t ∧ t.ok = false ∧ t.cur = s.work.cur0 ∧
      (∀ a, Outside a s.work.cur0 22 → t.buf.read a = s.buf.read a) ∧
      t.params = s.params ∧ t.env = s.env ∧ t.inbox = s.inbox

/-- The frame of all fourteen formats (R42, R43): on success the buffer keeps every byte outside the `n` bytes the cursor has
moved past, 1 to 22 of them; on failure the cursor is the captured one and every byte outside the 22 at it stays. The
configuration, the surroundings and the queue stay. The working registers hold their idle values afterwards: the model's
choice, since the spec only says that they are discarded (log 12). -/
def Obligations.FormatsTouchOnlyTheirRegion : Prop :=
  ∀ (s t : State) (i : Instr),
    i ∈ [Instr.fmtNp, .fmtM, .fmtMi, .fmtMr, .fmtRm, .fmtMri, .fmtRmi, .fmtI, .fmtAi, .fmtO, .fmtOi, .fmtAo, .fmtD] ∨
      (∃ tag, i = .fmtUnrealized tag) →
    exec i s = .next t →
      (t.ok = true → ∃ n : Nat, 1 ≤ n ∧ n ≤ 22 ∧ t.cur = s.work.cur0 + BitVec.ofNat 64 n ∧
        ∀ a, Outside a s.work.cur0 n → t.buf.read a = s.buf.read a) ∧
      (t.ok = false → t.cur = s.work.cur0 ∧ ∀ a, Outside a s.work.cur0 22 → t.buf.read a = s.buf.read a) ∧
      t.work = Work.idle t.cur ∧ t.params = s.params ∧ t.env = s.env ∧ t.inbox = s.inbox

/-- FMT_M to FMT_OI, FMT_D: the causes of failure E_TABLE, E_OPERAND_KIND and E_IMM_RANGE, format by format (R151, R170, R191,
R233, R281): the transaction takes the failure outcome. -/
def Obligations.MissingConstantsKindsAndWideImmediatesFail : Prop :=
  ∀ s : State,
    (s.work.record.regc = none → exec .fmtM s = .next s.fail ∧ exec .fmtMi s = .next s.fail) ∧
    (isMem s.work.req.op1 = true → exec .fmtMr s = .next s.fail ∧ exec .fmtMri s = .next s.fail ∧
      exec .fmtAo s = .next s.fail) ∧
    (isMem s.work.req.op0 = true → exec .fmtRm s = .next s.fail ∧ exec .fmtRmi s = .next s.fail ∧
      exec .fmtO s = .next s.fail ∧ exec .fmtOi s = .next s.fail) ∧
    (¬ ImmLegal s.work.req.op0 s.work.record.immsz → exec .fmtI s = .next s.fail) ∧
    (¬ ImmLegal s.work.req.op1 s.work.record.immsz →
      exec .fmtAi s = .next s.fail ∧ exec .fmtMi s = .next s.fail ∧ exec .fmtOi s = .next s.fail) ∧
    (¬ ImmLegal s.work.req.op2 s.work.record.immsz → exec .fmtMri s = .next s.fail ∧ exec .fmtRmi s = .next s.fail) ∧
    (¬ ImmLegal s.job.rel s.work.record.immsz → exec .fmtD s = .next s.fail)

/-- A format reads no slot but those of its row in R73 (R239): with the flags given, requests that agree on the slots a
format consumes, on `addr32` and on `seg` have the same outcome. In particular AI and AO do not look at `op0`. -/
def Obligations.UnconsumedSlotsAreNotRead : Prop :=
  ∀ (s : State) (q : Req), q.addr32 = s.work.req.addr32 → q.seg = s.work.req.seg →
    let s' : State := { s with work := { s.work with req := q } }
    (exec .fmtNp s' = exec .fmtNp s) ∧
    (q.op0 = s.work.req.op0 → exec .fmtM s' = exec .fmtM s ∧ exec .fmtI s' = exec .fmtI s ∧
      exec .fmtO s' = exec .fmtO s ∧ exec .fmtD s' = exec .fmtD s) ∧
    (q.op1 = s.work.req.op1 → exec .fmtAi s' = exec .fmtAi s ∧ exec .fmtAo s' = exec .fmtAo s) ∧
    (q.op0 = s.work.req.op0 → q.op1 = s.work.req.op1 →
      exec .fmtMi s' = exec .fmtMi s ∧ exec .fmtMr s' = exec .fmtMr s ∧ exec .fmtRm s' = exec .fmtRm s ∧
      exec .fmtOi s' = exec .fmtOi s) ∧
    (q.op0 = s.work.req.op0 → q.op1 = s.work.req.op1 → q.op2 = s.work.req.op2 →
      exec .fmtMri s' = exec .fmtMri s ∧ exec .fmtRmi s' = exec .fmtRmi s)

/-! ### Steps -/

/-- A STEP RUNS THE DECODED FORMAT: for an admitted request whose mnemonic has a record, the step is the meaning of the row
its format tag decodes to, on the working registers as R230, R234, R235 and R311 set them and with the request taken off
the queue; and a tag of 13 or above decodes to the unrealized row. The model's choices here: `ok` is a free value (log 24), and
no ModRM byte and no descriptor view are there yet (log 22). -/
def Obligations.RequestRunsItsFormat : Prop :=
  ∀ (s : State) (q : Req) (rest : List Input) (record : Record) (i : Instr),
    s.inbox = .request q :: rest → s.Admitted → tableRecord s.params.table q.mnem = some record →
    decode (.tag record.fmt) = .ok i →
      step s = exec i
        { s with
          inbox := rest, ok := Config.freeBit s.draws, draws := s.draws + 1,
          work := { cur0 := s.cur, req := q, record := record,
                    flags := mandatoryRex record.mask8 q ⟨false, record.w, false, false, false⟩,
                    staged := [], modrm := none, view := .none } } ∧
      (13 ≤ record.fmt.toNat → i = .fmtUnrealized record.fmt)

/-- A STEP RUNS THE DECODED ROW: a probe word at the head of the queue that decodes to a row runs that row (the probe is the
model's own input, log 13); one that decodes to none is refused by name. -/
def Obligations.ProbeRunsItsRow : Prop :=
  ∀ (s : State) (slot : Slot) (bytes : List Byte) (rest : List Input),
    s.inbox = .probeField slot bytes :: rest → s.Admitted →
      (∀ i, decode (.field slot bytes) = .ok i → step s = exec i { s with inbox := rest }) ∧
      (∀ e, decode (.field slot bytes) = .error e → step s = .refused (.undecodable slot bytes))

/-- Rule R231: an admitted request for a mnemonic without a record fails at once. The 22 bytes at the cursor are free
afterwards here too, which allows the rule's "no byte is written" (log 9). -/
def Obligations.UnknownMnemonicFails : Prop :=
  ∀ (s : State) (q : Req) (rest : List Input),
    s.inbox = .request q :: rest → s.Admitted → tableRecord s.params.table q.mnem = none →
      ∃ t, step s = .next t ∧ t.ok = false ∧ t.cur = s.cur ∧
        (∀ a, Outside a s.cur 22 → t.buf.read a = s.buf.read a) ∧ t.inbox = rest

/-- Rule R47: a request whose 22 bytes are not all writable, or whose region wraps, has no step; with them the machine is not
stuck. A region that ends exactly at 2^64 counts as wrapping: the model's reading (log 10). -/
def Obligations.CapacityDecidesAdmission : Prop :=
  ∀ (s : State) (q : Req) (rest : List Input), s.inbox = .request q :: rest →
    (step s = .fault .notAdmitted ↔
      ¬ (s.cur.toNat + 22 < 2 ^ 64 ∧
        ∀ k : Nat, k < 22 →
          ∃ r ∈ s.env.writable, r.base ≤ s.cur.toNat + k ∧ s.cur.toNat + k < r.base + r.size))

/-- Rules R52 and R316: with its 22 writable bytes, a request is refused exactly when another transaction or agent holds a
byte of its region, or the inputs do. Which of the two is told when both hold is the model's choice (log 11). -/
def Obligations.SharedRegionsAreRefused : Prop :=
  ∀ (s : State) (q : Req) (rest : List Input), s.inbox = .request q :: rest → step s ≠ .fault .notAdmitted →
    (step s = .refused .regionShared ↔
      ∃ k : Nat, k < 22 ∧ ∃ r ∈ s.env.busy, r.base ≤ s.cur.toNat + k ∧ s.cur.toNat + k < r.base + r.size) ∧
    (step s = .refused .inputsInRegion ↔
      (¬ ∃ k : Nat, k < 22 ∧ ∃ r ∈ s.env.busy, r.base ≤ s.cur.toNat + k ∧ s.cur.toNat + k < r.base + r.size) ∧
      ∃ k : Nat, k < 22 ∧ ∃ r ∈ s.env.inputs, r.base ≤ s.cur.toNat + k ∧ s.cur.toNat + k < r.base + r.size)

/-- Rules R281, R282, R284: an admitted request always gets its response: a next state, never a stop, whatever the operands,
the record and the table. That the working registers are then idle is the model's choice (log 12). -/
def Obligations.AdmittedRequestsAlwaysAnswer : Prop :=
  ∀ (s : State) (q : Req) (rest : List Input), s.inbox = .request q :: rest → s.Admitted →
    ∃ t, step s = .next t ∧ t.inbox = rest ∧ t.work = Work.idle t.cur

/-- The working registers at the start of a transaction (R230, R235, R311) and the mandatory-REX rule (R234), seen through
the model's probe (log 13): `rex_req` is set exactly when some flagged slot holds a descriptor in [0x104, 0x107], read raw. That
no ModRM byte and no descriptor view are there yet is the model's choice (log 22). -/
def Obligations.TransactionStartValues : Prop :=
  ∀ (s : State) (q : Req) (rest : List Input) (record : Record),
    s.inbox = .probeOpen q :: rest → s.Admitted → tableRecord s.params.table q.mnem = some record →
      ∃ t, step s = .next t ∧ t.work.cur0 = s.cur ∧ t.work.req = q ∧ t.work.record = record ∧ t.work.staged = [] ∧
        t.work.modrm = none ∧ t.work.view = .none ∧
        t.work.flags.w = record.w ∧ t.work.flags.r = false ∧ t.work.flags.x = false ∧ t.work.flags.b = false ∧
        (t.work.flags.rexReq = true ↔
          (record.mask8.getLsbD 0 = true ∧ 0x104 ≤ q.op0.toNat ∧ q.op0.toNat ≤ 0x107) ∨
          (record.mask8.getLsbD 1 = true ∧ 0x104 ≤ q.op1.toNat ∧ q.op1.toNat ≤ 0x107) ∨
          (record.mask8.getLsbD 2 = true ∧ 0x104 ≤ q.op2.toNat ∧ q.op2.toNat ≤ 0x107) ∨
          (record.mask8.getLsbD 3 = true ∧ 0x104 ≤ q.op3.toNat ∧ q.op3.toNat ≤ 0x107)) ∧
        t.cur = s.cur ∧ (∀ a, t.buf.read a = s.buf.read a) ∧ t.params = s.params ∧ t.env = s.env ∧ t.inbox = rest

/-- The whole transaction (R253): an admitted request whose mnemonic has a record commits exactly the closed form's bytes
when none of the causes of R281 holds, and fails otherwise. -/
def Obligations.RequestCommitsLayoutOrFails : Prop :=
  ∀ (s : State) (q : Req) (rest : List Input) (record : Record),
    s.inbox = .request q :: rest → s.Admitted → tableRecord s.params.table q.mnem = some record →
      ((s.jobOf q record).Legal → step s = .next (((s.take rest).load q record).commit (s.jobOf q record).bytes)) ∧
      (¬ (s.jobOf q record).Legal → step s = .next ((s.take rest).load q record).fail)

/-- Rule R42: on success the response says so, the cursor has advanced past the bytes, byte `k` of the committed list is at
`cur0 + k`, and no other address changed. -/
def Obligations.SuccessWritesExactlyTheBytes : Prop :=
  ∀ (s t : State) (q : Req) (rest : List Input),
    s.inbox = .request q :: rest → step s = .next t → t.ok = true →
      ∃ (record : Record) (bs : List Byte), tableRecord s.params.table q.mnem = some record ∧
        bs = (s.jobOf q record).bytes ∧ bs.length ≤ 22 ∧ t.cur = s.cur + BitVec.ofNat 64 bs.length ∧
        (∀ (k : Nat) (h : k < bs.length), t.buf.read (s.cur.toNat + k) = some bs[k]) ∧
        (∀ a, Outside a s.cur bs.length → t.buf.read a = s.buf.read a)

/-- Rule R43: on failure the cursor is unchanged, the 22 bytes at it hold free values, each its own draw, and every other
byte is unchanged. -/
def Obligations.FailureRestoresCursorAndFreesRegion : Prop :=
  ∀ (s t : State) (q : Req) (rest : List Input),
    s.inbox = .request q :: rest → step s = .next t → t.ok = false →
      t.cur = s.cur ∧
      (∃ d : Nat, s.draws ≤ d ∧ d + 22 ≤ t.draws ∧
        ∀ k : Nat, k < 22 → t.buf.read (s.cur.toNat + k) = some (Config.freeByte (d + k))) ∧
      (∀ a, Outside a s.cur 22 → t.buf.read a = s.buf.read a)

/-- Rule R75: a request that succeeds moves the cursor by the rule's sum over the final flags. The ModRM part is 0 for formats
without ModRM; else it is 1, plus 1 for a SIB exactly when the ModRM byte in the buffer has `mod ≠ 3` and `rm = 4`, plus the
displacement width of R68. The sum is at most 22, and some step reaches 22. -/
def Obligations.LengthFollowsTheFormula : Prop :=
  (∀ (s t : State) (q : Req) (rest : List Input),
    s.inbox = .request q :: rest → step s = .next t → t.ok = true →
      ∃ (record : Record) (m n : Nat), tableRecord s.params.table q.mnem = some record ∧
        t.cur = s.cur + BitVec.ofNat 64 (lengthFormula q record (s.jobOf q record).finalFlags m n) ∧
        lengthFormula q record (s.jobOf q record).finalFlags m n ≤ 22 ∧
        n = (if record.fmt.toNat ∈ [2, 5, 6, 7, 8, 10, 12] then record.immsz else 0) ∧
        (¬ (1 ≤ record.fmt.toNat ∧ record.fmt.toNat ≤ 6) → m = 0) ∧
        (1 ≤ record.fmt.toNat ∧ record.fmt.toNat ≤ 6 →
          ∃ (md : BitVec 2) (g rm : BitVec 3),
            t.buf.read (s.cur.toNat + lengthFormula q record (s.jobOf q record).finalFlags 0 0) =
              some (md ++ g ++ rm : BitVec 8) ∧
            m = 1 + (if md ≠ 3 ∧ rm = 4 then 1 else 0) +
              (if isMem (s.jobOf q record).dest = true ∧
                  (memBase (s.jobOf q record).dest = 0 ∨ memBase (s.jobOf q record).dest = s.params.ripSentinel) then 4
                else if md = 1 then 1 else if md = 2 then 4 else 0))) ∧
  (∃ (s t : State) (q : Req) (rest : List Input),
    s.inbox = .request q :: rest ∧ step s = .next t ∧ t.ok = true ∧ t.cur = s.cur + 22)

/-- Reserved codes (R74, R196 to R207): a memory destination resolves exactly when it is legal, and then `mod = 0` with
`rm = 5` is the IP base, `mod = 0` with SIB base 5 is "no base", SIB index 4 is "no index", `mod` is never 3, a SIB stands
for `rm = 4`, and the 32-bit displacement is forced exactly for those two bases. -/
def Obligations.ReservedCodesKeepTheirMeaning : Prop :=
  ∀ (rip : Code) (op : Desc), isMem op = true →
    ((∃ fm, resolve rip op = .ok fm) ↔ MemoryLegal rip op) ∧
    ∀ fm, resolve rip op = .ok fm →
      fm.mod ≠ 3 ∧
      (fm.mod = 0 ∧ fm.rm = 5 ↔ memBase op ≠ 0 ∧ memBase op = rip) ∧
      (fm.mod = 0 ∧ fm.rm = 4 ∧ fm.sibBase = 5 ↔ memBase op = 0) ∧
      (fm.idx3 = 4 ↔ memIndex op = 0) ∧
      (fm.rm = 4 ↔ memBase op = 0 ∨ memIndex op ≠ 0 ∨ (memBase op ≠ rip ∧ codeLo3 (memBase op) = 4)) ∧
      (fm.force32 = true ↔ memBase op = 0 ∨ memBase op = rip)

/-- Rules R205 and R206 with conflict C2: for a GPL base, `mod` is 0 exactly for displacement 0 and a code that is not 5
mod 8, else 1 exactly for a displacement in [-128, 127], else 2, and the 32-bit displacement is not forced. -/
def Obligations.DisplacementSizingOfBases : Prop :=
  ∀ (rip : Code) (op : Desc) (fm : Form), isMem op = true → baseKind rip (memBase op) = .gplBase →
    resolve rip op = .ok fm →
      (fm.mod = 0 ↔ memDisp op = 0 ∧ codeLo3 (memBase op) ≠ 5) ∧
      (fm.mod = 1 ↔ Short (memDisp op) ∧ ¬ (memDisp op = 0 ∧ codeLo3 (memBase op) ≠ 5)) ∧
      (fm.mod = 2 ↔ ¬ Short (memDisp op)) ∧
      fm.force32 = false

/-- Rules R172 and R195, for all nine formats that encode a register: no successful transaction encodes a legacy high byte
beside a REX byte. If a destination, a reg-field register or an opcode register is one, the final flags call for no REX. -/
def Obligations.HighBytesNeverMeetRex : Prop :=
  ∀ (s t : State) (i : Instr), exec i s = .next t → t.ok = true →
    (∀ dst r : Desc,
      (i = .fmtMr ∨ i = .fmtMri) ∧ dst = s.work.req.op0 ∧ r = s.work.req.op1 ∨
        (i = .fmtRm ∨ i = .fmtRmi) ∧ dst = s.work.req.op1 ∧ r = s.work.req.op0 →
      HighByte dst ∨ HighByte r → ¬ AnyRex (pairFlags s.params.ripSentinel s.work.flags dst r)) ∧
    (i = .fmtM ∨ i = .fmtMi → HighByte s.work.req.op0 →
      ¬ AnyRex (soloFlags s.params.ripSentinel s.work.flags s.work.req.op0)) ∧
    (∀ r : Desc, (i = .fmtO ∨ i = .fmtOi) ∧ r = s.work.req.op0 ∨ i = .fmtAo ∧ r = s.work.req.op1 →
      HighByte r → ¬ AnyRex (opcFlags s.work.flags r))

/-- Rules R153 and R252: a format-D transaction that succeeds for a target that is not the sentinel holds in its last
`immsz` bytes a number that, sign-extended and added to the cursor after the instruction, is the target. -/
def Obligations.RelativeTargetIsReached : Prop :=
  ∀ (s t : State), exec .fmtD s = .next t → t.ok = true → s.work.req.op0 ≠ s.params.jmpSentinel →
    ∃ v : BitVec 64, t = s.commit (s.job.head s.work.flags ++ le v s.work.record.immsz) ∧
      t.cur + sextBytes (leValue (le v s.work.record.immsz)) s.work.record.immsz = s.work.req.op0

/-- Rules R153 and R252 with D19: the sentinel target is encoded as displacement 0, at every legal width and every cursor, so
it never fails for its range. -/
def Obligations.SentinelEncodesZero : Prop :=
  ∀ s : State, s.work.req.op0 = s.params.jmpSentinel → LegalWidth s.work.record.immsz →
    exec .fmtD s =
      .next (s.commit (layoutPrefixes s.work.req ++ layoutOpcode s.work.record s.work.flags none ++
        List.replicate s.work.record.immsz 0))

/-- The round trip the source asks for (95_test_vectors.md section 2.2), for register pairs: in the formats MR and RM, with the
record and the two prefixes known and F.R and F.B clear on entry (R235), two transactions that succeed and commit the same
bytes have the same two register codes. So both codes can be read back from what is in the buffer. -/
def Obligations.RegisterPairsAreRecovered : Prop :=
  ∀ (s s' t t' : State) (i : Instr), i = .fmtMr ∨ i = .fmtRm →
    isReg s.work.req.op0 = true → isReg s.work.req.op1 = true →
    isReg s'.work.req.op0 = true → isReg s'.work.req.op1 = true →
    s.work.record = s'.work.record → s.work.req.addr32 = s'.work.req.addr32 → s.work.req.seg = s'.work.req.seg →
    s.work.flags.r = false → s.work.flags.b = false → s'.work.flags.r = false → s'.work.flags.b = false →
    exec i s = .next t → t.ok = true → exec i s' = .next t' → t'.ok = true →
    t.cur - s.work.cur0 = t'.cur - s'.work.cur0 →
    (∀ k : Nat, k < (t.cur - s.work.cur0).toNat →
      t.buf.read (s.work.cur0 + BitVec.ofNat 64 k).toNat = t'.buf.read (s'.work.cur0 + BitVec.ofNat 64 k).toNat) →
      regCode s.work.req.op0 = regCode s'.work.req.op0 ∧ regCode s.work.req.op1 = regCode s'.work.req.op1

/-! ### Whole-machine rules -/

/-- Every step keeps the invariant: memory stays canonical, the captured cursor is the cursor, the configuration meets D18.
That `cur0` is the cursor outside a transaction is the model's choice (log 12). -/
def Obligations.EveryStepKeepsTheInvariant : Prop :=
  ∀ s t : State, s.Inv → step s = .next t → t.Inv

/-- The invariant holds after reset. The reset values are the model's choice (log 2, log 3, log 8, log 12). -/
def Obligations.ResetMeetsTheInvariant : Prop := State.reset.Inv

/-- After reset nothing is in progress (R34, R310). The rest is the model's choice: nothing is queued (log 15), a step with
nothing queued leaves the state as it is (log 16), the working registers are idle (log 12), and no buffer byte has a value
(log 8). -/
def Obligations.ResetStateWaits : Prop :=
  step State.reset = .next State.reset ∧ State.reset.work = Work.idle State.reset.cur ∧ State.reset.buf = []

/-- Rule R21: no step writes the configuration, the table and the parameters (SEGBYTE is a constant of the model). -/
def Obligations.ConfigurationIsNeverWritten : Prop :=
  ∀ s t : State, step s = .next t → t.params = s.params

/-- Rule R311: no value carries over. What a request does, does not depend on the working registers an earlier transaction
(or a probe) left, nor on the earlier response. -/
def Obligations.NothingCarriesOver : Prop :=
  ∀ (s : State) (w : Work) (b : Bool) (q : Req) (rest : List Input), s.inbox = .request q :: rest →
    step { s with work := w, ok := b } = step s

/-- Rule R282: after a failure the caller may issue any further transaction, and the block behaves as if the failed
transaction had not happened, except for the 22 bytes at the cursor: the next request gets the same response and cursor, and
the same byte everywhere outside those 22, and, if it succeeds, the same bytes too. -/
def Obligations.FailuresAreForgotten : Prop :=
  ∀ (s t : State) (q q' : Req) (rest : List Input),
    s.inbox = .request q :: .request q' :: rest → step s = .next t → t.ok = false →
    ∃ u v : State, step t = .next u ∧ step { s with inbox := .request q' :: rest } = .next v ∧
      u.ok = v.ok ∧ u.cur = v.cur ∧ u.params = v.params ∧ u.env = v.env ∧ u.inbox = v.inbox ∧
      (∀ a, Outside a s.cur 22 → u.buf.read a = v.buf.read a) ∧
      (u.ok = true → ∀ k : Nat, s.cur.toNat + k < u.cur.toNat → u.buf.read (s.cur.toNat + k) = v.buf.read (s.cur.toNat + k))

/-- Rule R52: transactions on disjoint regions commute. A caller moves to `a` and issues `q`, then another moves to `b` and
issues `q'`. When both succeed in this order, both succeed in the other, and the buffer is the same. The model runs the rule's
concurrent transactions one after the other (log 17), with the cursor set by an input of the caller (log 16): its choice. -/
def Obligations.DisjointTransactionsCommute : Prop :=
  ∀ (s u u' : State) (a b : Addr) (q q' : Req), Memory.wf s.buf = true →
    a.toNat + 22 ≤ b.toNat ∨ b.toNat + 22 ≤ a.toNat →
    runSteps 2 { s with inbox := [.moveCursor a, .request q] } = .next u → u.ok = true →
    runSteps 2 { u with inbox := [.moveCursor b, .request q'] } = .next u' → u'.ok = true →
    ∃ v v' : State,
      runSteps 2 { s with inbox := [.moveCursor b, .request q'] } = .next v ∧ v.ok = true ∧
      runSteps 2 { v with inbox := [.moveCursor a, .request q] } = .next v' ∧ v'.ok = true ∧
      v'.buf = u'.buf ∧ v'.params = u'.params ∧ v'.env = u'.env

/-- One input a step, in the order the caller issues them (R51): a step takes exactly the head of the queue, with an empty
queue changes nothing, and changes the surroundings only by the caller's own input (log 16). -/
def Obligations.InputsAreTakenInOrder : Prop :=
  ∀ s t : State, step s = .next t →
    t.inbox = s.inbox.tail ∧ (s.inbox = [] → t = s) ∧
    (t.env = s.env ∨ ∃ e rest, s.inbox = .setEnv e :: rest ∧ t.env = e)

/-- What the caller does between transactions (the model's inputs, log 16): moving the cursor writes no byte; a store of one
byte changes that byte alone and not the cursor; new surroundings and reset (R310) change neither. That `ok` can still be read
after each of them (log 25), and that the working registers are idle after reset (log 12), are the model's choices too. -/
def Obligations.CallerInputsTouchOnlyTheirOwn : Prop :=
  ∀ (s : State) (rest : List Input) (a : Addr) (b : Byte) (e : Env),
    (s.inbox = .moveCursor a :: rest →
      ∃ t, step s = .next t ∧ t.cur = a ∧ (∀ x, t.buf.read x = s.buf.read x) ∧ t.ok = s.ok) ∧
    (s.inbox = .storeByte a b :: rest →
      ∃ t, step s = .next t ∧ t.cur = s.cur ∧ t.buf.read a.toNat = some b ∧
        (∀ x, x ≠ a.toNat → t.buf.read x = s.buf.read x) ∧ t.ok = s.ok) ∧
    (s.inbox = .setEnv e :: rest →
      ∃ t, step s = .next t ∧ t.env = e ∧ t.cur = s.cur ∧ (∀ x, t.buf.read x = s.buf.read x) ∧ t.ok = s.ok) ∧
    (s.inbox = .reset :: rest →
      ∃ t, step s = .next t ∧ t.work = Work.idle s.cur ∧ t.cur = s.cur ∧ (∀ x, t.buf.read x = s.buf.read x) ∧
        t.ok = s.ok ∧ t.params = s.params ∧ t.env = s.env)
end

