-- ==== Sys2Proof/Laws/State.lean ====
section
/-! SUPPORT. One lemma per field per named update of State, true by rfl, so that no later proof unfolds a record update. -/

namespace Sys2Proof.Machine

section
variable (s : State)

@[simp] theorem State.load_cur (q : Req) (r : Record) : (s.load q r).cur = s.cur := rfl
@[simp] theorem State.load_buf (q : Req) (r : Record) : (s.load q r).buf = s.buf := rfl
@[simp] theorem State.load_ok (q : Req) (r : Record) : (s.load q r).ok = Config.freeBit s.draws := rfl
@[simp] theorem State.load_work (q : Req) (r : Record) : (s.load q r).work = Work.start s.cur q r := rfl
@[simp] theorem State.load_params (q : Req) (r : Record) : (s.load q r).params = s.params := rfl
@[simp] theorem State.load_env (q : Req) (r : Record) : (s.load q r).env = s.env := rfl
@[simp] theorem State.load_inbox (q : Req) (r : Record) : (s.load q r).inbox = s.inbox := rfl
@[simp] theorem State.load_draws (q : Req) (r : Record) : (s.load q r).draws = s.draws + 1 := rfl

@[simp] theorem State.stage_cur (bs : List Byte) : (s.stage bs).cur = s.cur := rfl
@[simp] theorem State.stage_buf (bs : List Byte) : (s.stage bs).buf = s.buf := rfl
@[simp] theorem State.stage_ok (bs : List Byte) : (s.stage bs).ok = s.ok := rfl
@[simp] theorem State.stage_work (bs : List Byte) : (s.stage bs).work = { s.work with staged := s.work.staged ++ bs } := rfl
@[simp] theorem State.stage_params (bs : List Byte) : (s.stage bs).params = s.params := rfl
@[simp] theorem State.stage_env (bs : List Byte) : (s.stage bs).env = s.env := rfl
@[simp] theorem State.stage_inbox (bs : List Byte) : (s.stage bs).inbox = s.inbox := rfl
@[simp] theorem State.stage_draws (bs : List Byte) : (s.stage bs).draws = s.draws := rfl

@[simp] theorem State.latchModrm_cur (b : Byte) : (s.latchModrm b).cur = s.cur := rfl
@[simp] theorem State.latchModrm_buf (b : Byte) : (s.latchModrm b).buf = s.buf := rfl
@[simp] theorem State.latchModrm_ok (b : Byte) : (s.latchModrm b).ok = s.ok := rfl
@[simp] theorem State.latchModrm_work (b : Byte) : (s.latchModrm b).work = { s.work with modrm := some b } := rfl
@[simp] theorem State.latchModrm_params (b : Byte) : (s.latchModrm b).params = s.params := rfl
@[simp] theorem State.latchModrm_env (b : Byte) : (s.latchModrm b).env = s.env := rfl
@[simp] theorem State.latchModrm_inbox (b : Byte) : (s.latchModrm b).inbox = s.inbox := rfl
@[simp] theorem State.latchModrm_draws (b : Byte) : (s.latchModrm b).draws = s.draws := rfl

@[simp] theorem State.latchView_cur (v : View) : (s.latchView v).cur = s.cur := rfl
@[simp] theorem State.latchView_buf (v : View) : (s.latchView v).buf = s.buf := rfl
@[simp] theorem State.latchView_ok (v : View) : (s.latchView v).ok = s.ok := rfl
@[simp] theorem State.latchView_work (v : View) : (s.latchView v).work = { s.work with view := v } := rfl
@[simp] theorem State.latchView_params (v : View) : (s.latchView v).params = s.params := rfl
@[simp] theorem State.latchView_env (v : View) : (s.latchView v).env = s.env := rfl
@[simp] theorem State.latchView_inbox (v : View) : (s.latchView v).inbox = s.inbox := rfl
@[simp] theorem State.latchView_draws (v : View) : (s.latchView v).draws = s.draws := rfl

@[simp] theorem State.commit_cur (bs : List Byte) : (s.commit bs).cur = s.work.cur0 + BitVec.ofNat 64 bs.length := rfl
@[simp] theorem State.commit_buf (bs : List Byte) : (s.commit bs).buf = s.buf.writeBytes s.work.cur0 bs := rfl
@[simp] theorem State.commit_ok (bs : List Byte) : (s.commit bs).ok = true := rfl
@[simp] theorem State.commit_work (bs : List Byte) : (s.commit bs).work = Work.idle (s.work.cur0 + BitVec.ofNat 64 bs.length) := rfl
@[simp] theorem State.commit_params (bs : List Byte) : (s.commit bs).params = s.params := rfl
@[simp] theorem State.commit_env (bs : List Byte) : (s.commit bs).env = s.env := rfl
@[simp] theorem State.commit_inbox (bs : List Byte) : (s.commit bs).inbox = s.inbox := rfl
@[simp] theorem State.commit_draws (bs : List Byte) : (s.commit bs).draws = s.draws := rfl

@[simp] theorem State.fail_cur : (s.fail).cur = s.work.cur0 := rfl
@[simp] theorem State.fail_buf : (s.fail).buf = s.buf.writeBytes s.work.cur0 (freeBytes s.draws) := by
  simp only [State.fail]
@[simp] theorem State.fail_ok : (s.fail).ok = false := rfl
@[simp] theorem State.fail_work : (s.fail).work = Work.idle s.work.cur0 := rfl
@[simp] theorem State.fail_params : (s.fail).params = s.params := rfl
@[simp] theorem State.fail_env : (s.fail).env = s.env := rfl
@[simp] theorem State.fail_inbox : (s.fail).inbox = s.inbox := rfl
@[simp] theorem State.fail_draws : (s.fail).draws = s.draws + Config.maxLen := rfl

@[simp] theorem State.take_cur (rest : List Input) : (s.take rest).cur = s.cur := rfl
@[simp] theorem State.take_buf (rest : List Input) : (s.take rest).buf = s.buf := rfl
@[simp] theorem State.take_ok (rest : List Input) : (s.take rest).ok = s.ok := rfl
@[simp] theorem State.take_work (rest : List Input) : (s.take rest).work = s.work := rfl
@[simp] theorem State.take_params (rest : List Input) : (s.take rest).params = s.params := rfl
@[simp] theorem State.take_env (rest : List Input) : (s.take rest).env = s.env := rfl
@[simp] theorem State.take_inbox (rest : List Input) : (s.take rest).inbox = rest := rfl
@[simp] theorem State.take_draws (rest : List Input) : (s.take rest).draws = s.draws := rfl

@[simp] theorem State.moveCursor_cur (a : Addr) : (s.moveCursor a).cur = a := rfl
@[simp] theorem State.moveCursor_buf (a : Addr) : (s.moveCursor a).buf = s.buf := rfl
@[simp] theorem State.moveCursor_ok (a : Addr) : (s.moveCursor a).ok = s.ok := rfl
@[simp] theorem State.moveCursor_work (a : Addr) : (s.moveCursor a).work = Work.idle a := rfl
@[simp] theorem State.moveCursor_params (a : Addr) : (s.moveCursor a).params = s.params := rfl
@[simp] theorem State.moveCursor_env (a : Addr) : (s.moveCursor a).env = s.env := rfl
@[simp] theorem State.moveCursor_inbox (a : Addr) : (s.moveCursor a).inbox = s.inbox := rfl
@[simp] theorem State.moveCursor_draws (a : Addr) : (s.moveCursor a).draws = s.draws := rfl

@[simp] theorem State.storeByte_cur (a : Addr) (b : Byte) : (s.storeByte a b).cur = s.cur := rfl
@[simp] theorem State.storeByte_buf (a : Addr) (b : Byte) : (s.storeByte a b).buf = s.buf.write a.toNat b := rfl
@[simp] theorem State.storeByte_ok (a : Addr) (b : Byte) : (s.storeByte a b).ok = s.ok := rfl
@[simp] theorem State.storeByte_work (a : Addr) (b : Byte) : (s.storeByte a b).work = s.work := rfl
@[simp] theorem State.storeByte_params (a : Addr) (b : Byte) : (s.storeByte a b).params = s.params := rfl
@[simp] theorem State.storeByte_env (a : Addr) (b : Byte) : (s.storeByte a b).env = s.env := rfl
@[simp] theorem State.storeByte_inbox (a : Addr) (b : Byte) : (s.storeByte a b).inbox = s.inbox := rfl
@[simp] theorem State.storeByte_draws (a : Addr) (b : Byte) : (s.storeByte a b).draws = s.draws := rfl

@[simp] theorem State.setEnv_cur (e : Env) : (s.setEnv e).cur = s.cur := rfl
@[simp] theorem State.setEnv_buf (e : Env) : (s.setEnv e).buf = s.buf := rfl
@[simp] theorem State.setEnv_ok (e : Env) : (s.setEnv e).ok = s.ok := rfl
@[simp] theorem State.setEnv_work (e : Env) : (s.setEnv e).work = s.work := rfl
@[simp] theorem State.setEnv_params (e : Env) : (s.setEnv e).params = s.params := rfl
@[simp] theorem State.setEnv_env (e : Env) : (s.setEnv e).env = e := rfl
@[simp] theorem State.setEnv_inbox (e : Env) : (s.setEnv e).inbox = s.inbox := rfl
@[simp] theorem State.setEnv_draws (e : Env) : (s.setEnv e).draws = s.draws := rfl

@[simp] theorem State.quiesce_cur : (s.quiesce).cur = s.cur := rfl
@[simp] theorem State.quiesce_buf : (s.quiesce).buf = s.buf := rfl
@[simp] theorem State.quiesce_ok : (s.quiesce).ok = s.ok := rfl
@[simp] theorem State.quiesce_work : (s.quiesce).work = Work.idle s.cur := rfl
@[simp] theorem State.quiesce_params : (s.quiesce).params = s.params := rfl
@[simp] theorem State.quiesce_env : (s.quiesce).env = s.env := rfl
@[simp] theorem State.quiesce_inbox : (s.quiesce).inbox = s.inbox := rfl
@[simp] theorem State.quiesce_draws : (s.quiesce).draws = s.draws := rfl
end

@[simp] theorem Work.idle_cur0 (c : Addr) : (Work.idle c).cur0 = c := rfl
@[simp] theorem Work.start_cur0 (c : Addr) (q : Req) (r : Record) : (Work.start c q r).cur0 = c := rfl
@[simp] theorem Work.start_req (c : Addr) (q : Req) (r : Record) : (Work.start c q r).req = q := rfl
@[simp] theorem Work.start_record (c : Addr) (q : Req) (r : Record) : (Work.start c q r).record = r := rfl
@[simp] theorem Work.start_flags (c : Addr) (q : Req) (r : Record) :
    (Work.start c q r).flags = mandatoryRex r.mask8 q (Flags.initial r.w) := rfl
@[simp] theorem Work.start_staged (c : Addr) (q : Req) (r : Record) : (Work.start c q r).staged = [] := rfl
@[simp] theorem Work.start_modrm (c : Addr) (q : Req) (r : Record) : (Work.start c q r).modrm = none := rfl
@[simp] theorem Work.start_view (c : Addr) (q : Req) (r : Record) : (Work.start c q r).view = .none := rfl

end Sys2Proof.Machine
end

