-- ==== Sys2Proof/Laws/Memory.lean ====
section
/-! SUPPORT. The laws of the buffer: read after write, writes leave other addresses alone, every write keeps the canonical
form, and writes to different addresses commute. -/

namespace Sys2Proof.Machine

namespace Memory

/-! ### One byte -/

theorem read_write_same (m : Memory) (a : Nat) (b : Byte) : (m.write a b).read a = some b := by
  induction m with
  | nil => simp [write, read]
  | cons c m ih =>
    unfold write
    split
    · simp [read]
    · split
      · simp [read]
      · have hne : c.1 ≠ a := fun h => by omega
        simp [read, hne, ih]

theorem read_write_other (m : Memory) {a x : Nat} (b : Byte) (h : x ≠ a) : (m.write a b).read x = m.read x := by
  have h' : a ≠ x := fun e => h e.symm
  induction m with
  | nil => simp [write, read, h']
  | cons c m ih =>
    unfold write
    split
    · simp [read, h']
    · split
      · next he => simp [read, h', ← he]
      · simp [read, ih]

/-- What a one-byte write does to every read. -/
theorem read_write (m : Memory) (a x : Nat) (b : Byte) :
    (m.write a b).read x = if x = a then some b else m.read x := by
  split
  · next h => rw [h, read_write_same]
  · next h => exact read_write_other m b h

/-! ### The canonical form -/

/-- The tail of a canonical memory is canonical. -/
theorem wf_tail {c : Host.Cell} {m : Memory} (h : Memory.wf (c :: m) = true) : Memory.wf m = true := by
  cases m with
  | nil => rfl
  | cons d m => simp only [wf, Bool.and_eq_true] at h; exact h.2

/-- The head's address is below 2^64. -/
theorem wf_head {c : Host.Cell} {m : Memory} (h : Memory.wf (c :: m) = true) : c.1 < 2 ^ 64 := by
  cases m with
  | nil => simpa [wf] using h
  | cons d m => simp only [wf, Bool.and_eq_true, decide_eq_true_eq] at h; exact h.1.2

/-- A canonical memory below a canonical tail. -/
theorem wf_cons {c : Host.Cell} {m : Memory} (hc : c.1 < 2 ^ 64) (hm : Memory.wf m = true)
    (hlt : ∀ d ∈ m.head?, c.1 < d.1) : Memory.wf (c :: m) = true := by
  cases m with
  | nil => simpa [wf] using hc
  | cons d m =>
    simp only [wf, Bool.and_eq_true, decide_eq_true_eq]
    exact ⟨⟨hlt d (by simp), hc⟩, hm⟩

/-- The head of a written memory is the old head or the written cell. -/
theorem head_write (m : Memory) (a : Nat) (b : Byte) {d : Host.Cell} (h : d ∈ (m.write a b).head?) :
    d = (a, b) ∨ d ∈ m.head? := by
  cases m with
  | nil => left; simpa [write, eq_comm] using h
  | cons c m =>
    unfold write at h
    split at h
    · left; simpa [eq_comm] using h
    · split at h
      · left; simpa [eq_comm] using h
      · right; simpa using h

/-- A one-byte write keeps the canonical form. -/
theorem wf_write (m : Memory) {a : Nat} (b : Byte) (ha : a < 2 ^ 64) (h : Memory.wf m = true) :
    Memory.wf (m.write a b) = true := by
  induction m with
  | nil => simpa [write, wf] using ha
  | cons c m ih =>
    unfold write
    split
    · next hlt => exact wf_cons ha h (by simpa using hlt)
    · split
      · next he =>
        refine wf_cons ha (wf_tail h) ?_
        intro d hd
        cases m with
        | nil => simp at hd
        | cons e m =>
          simp only [List.head?_cons, Option.mem_def, Option.some.injEq] at hd
          subst hd
          simp only [wf, Bool.and_eq_true, decide_eq_true_eq] at h
          simpa [he] using h.1.1
      · next hlt hne =>
        refine wf_cons (wf_head h) (ih (wf_tail h)) ?_
        intro d hd
        rcases head_write m a b hd with rfl | hd
        · show c.1 < a; omega
        · cases m with
          | nil => simp at hd
          | cons e m =>
            simp only [List.head?_cons, Option.mem_def, Option.some.injEq] at hd
            subst hd
            simp only [wf, Bool.and_eq_true, decide_eq_true_eq] at h
            exact h.1.1

/-- Below its first address a canonical memory lists nothing. -/
theorem read_below {c : Host.Cell} {m : Memory} (h : Memory.wf (c :: m) = true) {a : Nat} (ha : a < c.1) :
    Memory.read (c :: m) a = none := by
  induction m generalizing c with
  | nil => simp [read, Nat.ne_of_gt ha]
  | cons d m ih =>
    have hd : c.1 < d.1 := by simp only [wf, Bool.and_eq_true, decide_eq_true_eq] at h; exact h.1.1
    rw [read, if_neg (Nat.ne_of_gt ha), ih (wf_tail h) (Nat.lt_trans ha hd)]

/-- Past its head, a canonical memory does not list the head's address again. -/
theorem read_tail_head {c : Host.Cell} {m : Memory} (h : Memory.wf (c :: m) = true) : Memory.read m c.1 = none := by
  cases m with
  | nil => rfl
  | cons d m =>
    have hd : c.1 < d.1 := by simp only [wf, Bool.and_eq_true, decide_eq_true_eq] at h; exact h.1.1
    exact read_below (wf_tail h) hd

/-- Canonical memories that read alike are equal data. -/
theorem ext_read {m n : Memory} (hm : Memory.wf m = true) (hn : Memory.wf n = true)
    (h : ∀ a, m.read a = n.read a) : m = n := by
  induction m generalizing n with
  | nil =>
    cases n with
    | nil => rfl
    | cons d n => simpa [read] using h d.1
  | cons c m ih =>
    cases n with
    | nil => simpa [read] using h c.1
    | cons d n =>
      have hcd : c.1 = d.1 := by
        rcases Nat.lt_trichotomy c.1 d.1 with hl | hl | hl
        · have := h c.1
          rw [read_below hn hl] at this
          simp [read] at this
        · exact hl
        · have := h d.1
          rw [read_below hm hl] at this
          simp [read] at this
      have h2 : c.2 = d.2 := by simpa [read, hcd] using h c.1
      have hc : c = d := Prod.ext hcd h2
      subst hc
      rw [ih (wf_tail hm) (wf_tail hn) ?_]
      intro a
      by_cases ha : c.1 = a
      · subst ha; rw [read_tail_head hm, read_tail_head hn]
      · simpa [read, ha] using h a

/-- Writes to different addresses commute, as lists. -/
theorem write_comm (m : Memory) {a x : Nat} (b y : Byte) (h : a ≠ x) (ha : a < 2 ^ 64) (hx : x < 2 ^ 64)
    (hm : Memory.wf m = true) : (m.write a b).write x y = (m.write x y).write a b := by
  refine ext_read (wf_write _ _ hx (wf_write _ _ ha hm)) (wf_write _ _ ha (wf_write _ _ hx hm)) fun z => ?_
  simp only [read_write]
  by_cases hz : z = x
  · simp [hz, h.symm]
  · simp [hz]

end Memory

/-! ### Byte lists -/

/-- The canonical form survives a whole commit. -/
theorem writeBytes_wf (m : Memory) (c : Addr) (bs : List Byte) (h : Memory.wf m = true) :
    Memory.wf (m.writeBytes c bs) = true := by
  induction bs generalizing m c with
  | nil => exact h
  | cons b bs ih => exact ih _ _ (Memory.wf_write m b c.isLt h)

/-- Addresses outside the written run keep their byte. -/
theorem writeBytes_read_outside (m : Memory) (c : Addr) (bs : List Byte) (a : Nat)
    (h : ∀ k : Nat, k < bs.length → a ≠ (c + BitVec.ofNat 64 k).toNat) : (m.writeBytes c bs).read a = m.read a := by
  induction bs generalizing m c with
  | nil => rfl
  | cons b bs ih =>
    have h0 : a ≠ c.toNat := by simpa using h 0 (by simp)
    unfold Memory.writeBytes
    rw [ih, Memory.read_write_other _ _ h0]
    intro k hk
    have := h (k + 1) (by simpa using hk)
    rwa [show c + 1 + BitVec.ofNat 64 k = c + BitVec.ofNat 64 (k + 1) by
      rw [BitVec.add_assoc, show (1 : BitVec 64) = BitVec.ofNat 64 1 from rfl, ← BitVec.ofNat_add, Nat.add_comm]]

/-- The k-th byte of the list is read at the k-th address, for lists shorter than the address space. -/
theorem writeBytes_read_inside (m : Memory) (c : Addr) (bs : List Byte) (k : Nat) (hk : k < bs.length)
    (hl : bs.length ≤ 2 ^ 64) : (m.writeBytes c bs).read (c + BitVec.ofNat 64 k).toNat = some (bs[k]) := by
  induction bs generalizing m c k with
  | nil => simp at hk
  | cons b bs ih =>
    unfold Memory.writeBytes
    cases k with
    | zero =>
      rw [writeBytes_read_outside]
      · simpa using Memory.read_write_same m c.toNat b
      · intro j hj he
        have hj' : j + 1 < 2 ^ 64 := by simp at hl hj; omega
        have : BitVec.ofNat 64 0 = 1 + BitVec.ofNat 64 j := by
          have := BitVec.eq_of_toNat_eq he
          rw [BitVec.add_assoc] at this
          exact (BitVec.add_right_inj c).1 this
        have := congrArg BitVec.toNat this
        simp [BitVec.toNat_add, BitVec.toNat_ofNat] at this
        omega
    | succ k =>
      have hk' : k < bs.length := by simpa using hk
      have := ih (m.write c.toNat b) (c + 1) k hk' (by simp at hl; omega)
      rw [show c + BitVec.ofNat 64 (k + 1) = c + 1 + BitVec.ofNat 64 k by
        rw [BitVec.add_assoc, show (1 : BitVec 64) = BitVec.ofNat 64 1 from rfl, ← BitVec.ofNat_add, Nat.add_comm]]
      simpa using this

end Sys2Proof.Machine
end

