-- ==== Sys2Proof/Laws/Emit.lean ====
section
/-! SUPPORT. One lemma per emitter: its length, or exactly when it succeeds and with which bytes. Later proofs cite these and
do not unfold the emitters. -/

namespace Sys2Proof

@[simp] theorem le_length (v : BitVec 64) (n : Nat) : (le v n).length = n := by
  induction n generalizing v with
  | zero => rfl
  | succ n ih => simp [le, ih]

/-- Byte `k` of a little-endian field holds bits `8k+7:8k` (R44). -/
theorem le_getElem (v : BitVec 64) (n k : Nat) (h : k < (le v n).length) : (le v n)[k] = v.extractLsb' (8 * k) 8 := by
  induction n generalizing v k with
  | zero => simp [le] at h
  | succ n ih =>
    cases k with
    | zero => ext i hi; simp [le]
    | succ k =>
      have h' : k < (le (v >>> 8) n).length := by simpa using h
      simp only [le, List.getElem_cons_succ]
      rw [ih _ _ h']
      ext i hi
      simp only [BitVec.getElem_extractLsb', BitVec.getLsbD_ushiftRight]
      congr 1; omega

/-- What the field's number is, bit by bit: the value below the field's end, zero above. -/
theorem leValue_le (v : BitVec 64) (n i : Nat) (hi : i < 64) :
    (leValue (le v n)).getLsbD i = (decide (i < 8 * n) && v.getLsbD i) := by
  induction n generalizing v i with
  | zero => simp [le, leValue]
  | succ n ih =>
    simp only [le, leValue, BitVec.getLsbD_or, BitVec.getLsbD_shiftLeft, BitVec.getLsbD_setWidth]
    by_cases h : i < 8
    · have : i < 8 * (n + 1) := by omega
      simp [h, this, hi]
    · rw [ih _ _ (by omega)]
      have e : (i - 8 < 8 * n) ↔ (i < 8 * (n + 1)) := by omega
      simp [h, hi, e, show 8 + (i - 8) = i by omega]

/-- Eight bytes hold a whole value. -/
theorem leValue_le_eight (v : BitVec 64) : leValue (le v 8) = v := by
  apply BitVec.eq_of_getLsbD_eq
  intro i hi
  rw [leValue_le _ _ _ hi]
  simp [show i < 8 * 8 by omega]

namespace Machine

/-- What step 7 answers (R238): a commit of a body that succeeded, or a failure. -/
theorem finish_cases {s t : State} {pre : List Byte} {body : Except EncodeError (List Byte)}
    (h : s.finish pre body = .next t) :
    (∃ bs, body = .ok bs ∧ t = s.commit (pre ++ bs)) ∨ (∃ e, body = .error e ∧ t = s.fail) := by
  cases body with
  | ok bs => left; exact ⟨bs, rfl, by simpa [State.finish] using h.symm⟩
  | error e => right; exact ⟨e, rfl, by simpa [State.finish] using h.symm⟩

@[simp] theorem finish_ok (s : State) (pre bs : List Byte) : s.finish pre (.ok bs) = .next (s.commit (pre ++ bs)) := rfl
@[simp] theorem finish_error (s : State) (pre : List Byte) (e : EncodeError) :
    s.finish pre (.error e) = .next s.fail := rfl

theorem widthOk_iff (w : Nat) : widthOk w = true ↔ LegalWidth w := by
  simp [widthOk, LegalWidth, or_assoc]

/-- `imm_emit` succeeds exactly on a legal width that the value fits, and then writes the value (R151). -/
theorem immEmit_ok_iff (v : BitVec 64) (w : Nat) (bs : List Byte) :
    immEmit v w = .ok bs ↔ LegalWidth w ∧ fits v w = true ∧ bs = le v w := by
  unfold immEmit
  rcases hw : widthOk w with _ | _
  · have : ¬ LegalWidth w := fun h => by simp [(widthOk_iff w).2 h] at hw
    simp [this]
  · have := (widthOk_iff w).1 hw
    rcases hf : fits v w with _ | _ <;> simp [this, eq_comm]

/-- A body followed by an immediate succeeds exactly when both parts do. -/
theorem thenImm_ok_iff (body : Except EncodeError (List Byte)) (v : BitVec 64) (w : Nat) (bs : List Byte) :
    thenImm body v w = .ok bs ↔ ∃ hd, body = .ok hd ∧ LegalWidth w ∧ fits v w = true ∧ bs = hd ++ le v w := by
  unfold thenImm
  cases body with
  | error e => simp
  | ok hd =>
    cases hi : immEmit v w with
    | error e =>
      have : ∀ is, immEmit v w ≠ .ok is := fun is h => by simp [hi] at h
      simp only [reduceCtorEq, false_iff]
      rintro ⟨hd', _, hw, hf, _⟩
      exact this _ ((immEmit_ok_iff v w _).2 ⟨hw, hf, rfl⟩)
    | ok is =>
      obtain ⟨hw, hf, rfl⟩ := (immEmit_ok_iff v w is).1 hi
      simp [hw, hf, eq_comm]

@[simp] theorem patchLast_length (bs : List Byte) (r : BitVec 3) : (patchLast bs r).length = bs.length := by
  match bs with
  | [] => rfl
  | [b] => rfl
  | b :: c :: m =>
    show (b :: patchLast (c :: m) r).length = _
    rw [List.length_cons, patchLast_length (c :: m) r]; rfl

/-- The patch reaches only the last byte (R79, R173). -/
theorem patchLast_append (bs : List Byte) (b : Byte) (r : BitVec 3) :
    patchLast (bs ++ [b]) r = bs ++ [patchLow3 b r] := by
  match bs with
  | [] => rfl
  | [c] => rfl
  | c :: d :: m =>
    show c :: patchLast (d :: m ++ [b]) r = _
    rw [patchLast_append (d :: m) b r]; rfl

/-- `regop_emit` succeeds exactly on a register that no REX byte makes unreachable (R170 to R173). -/
theorem regopEmit_ok_iff (record : Record) (f : Flags) (r : Desc) (bs : List Byte) :
    regopEmit record f r = .ok bs ↔
      isMem r = false ∧ ¬ (rexPresent (f.orB (hi1 r)) = true ∧ isGph r = true) ∧
        bs = patchLast (opcEmit record (f.orB (hi1 r))) (lo3 r) := by
  unfold regopEmit
  generalize patchLast (opcEmit record (f.orB (hi1 r))) (lo3 r) = out
  cases isMem r <;> cases rexPresent (f.orB (hi1 r)) <;> cases isGph r <;> simp [eq_comm]

/-- `modrm_emit` succeeds exactly when the source is a register or constant, no REX byte meets a legacy high byte, and the
destination resolves (R211). -/
theorem modrmEmit_ok_iff (rip : Code) (record : Record) (f : Flags) (dst : Desc) (rs : RegSrc) (bs : List Byte) :
    modrmEmit rip record f dst rs = .ok bs ↔
      regSrcOk rs = true ∧ ¬ (rexPresent (modrmFlags rip f dst rs) = true ∧ gphAny dst rs = true) ∧
        ∃ fm, resolve rip dst = .ok fm ∧
          bs = opcEmit record (modrmFlags rip f dst rs) ++ formBytes fm (regField rs) (memDisp dst) := by
  unfold modrmEmit
  generalize opcEmit record (modrmFlags rip f dst rs) = out
  cases regSrcOk rs <;> cases rexPresent (modrmFlags rip f dst rs) <;> cases gphAny dst rs <;>
    cases resolve rip dst <;> simp [eq_comm]

/-- The opcode part is 1 to 6 bytes long: R133's sum. -/
theorem opcEmit_length (r : Record) (f : Flags) :
    (opcEmit r f).length =
      (if r.mp = .none then 0 else 1) + (if rexPresent f then 1 else 0) + escLen r.esc + 1 +
        (if r.opc2 = none then 0 else 1) := by
  unfold opcEmit mpLine rexLine esc0FLine esc38Line esc3ALine opc2Line
  cases r.mp <;> cases r.esc <;> cases r.opc2 <;> cases rexPresent f <;> rfl

theorem opcEmit_length_le (r : Record) (f : Flags) : (opcEmit r f).length ≤ 6 := by
  rw [opcEmit_length]
  cases r.esc <;> dsimp only [escLen] <;> (repeat' split) <;> omega

theorem prefixBytes_length_le (q : Req) : (prefixBytes q).length ≤ 2 := by
  unfold prefixBytes addr32Line segLine
  cases q.addr32 <;> cases q.seg <;> decide

theorem formBytes_length_le (fm : Form) (r : BitVec 3) (d : BitVec 64) : (formBytes fm r d).length ≤ 6 := by
  unfold formBytes sibLine dispLen
  simp only [List.length_append, le_length]
  repeat' split
  all_goals simp

end Machine

end Sys2Proof
end

