-- ==== Sys2Proof/Laws/Operands.lean ====
section
/-! SUPPORT. The descriptor predicates as ranges and remainders of the number: one lemma each. -/

namespace Sys2Proof.Machine

theorem isReg_eq (op : Desc) : isReg op = !isMem op := rfl

theorem isMem_iff (op : Desc) : isMem op = true ↔ 2 ^ 63 ≤ op.toNat := by
  have h := op.isLt
  unfold isMem
  rw [BitVec.getLsbD, Nat.testBit_eq_decide_div_mod_eq, decide_eq_true_eq]
  omega

/-- Clearing the low `k` bits is dividing by `2^k`. -/
theorem and_not_mask (op : Desc) (m : Desc) (k : Nat) (hm : ∀ i : Nat, i < 64 → m.getLsbD i = decide (i < k)) :
    op &&& ~~~m = (op >>> k) <<< k := by
  apply BitVec.eq_of_getLsbD_eq
  intro i hi
  simp only [BitVec.getLsbD_and, BitVec.getLsbD_not, BitVec.getLsbD_shiftLeft, BitVec.getLsbD_ushiftRight, hi,
    hm i hi, decide_true, Bool.true_and]
  by_cases h : i < k
  · simp [h]
  · simp [h, Nat.add_sub_of_le (Nat.le_of_not_lt h)]

theorem isGpl_iff (op : Desc) : isGpl op = true ↔ 0x100 ≤ op.toNat ∧ op.toNat ≤ 0x10F := by
  have h := op.isLt
  unfold isGpl
  rw [and_not_mask op 0xF 4 (by decide), beq_iff_eq, ← BitVec.toNat_inj]
  simp only [BitVec.toNat_shiftLeft, BitVec.toNat_ushiftRight, Nat.shiftLeft_eq, Nat.shiftRight_eq_div_pow,
    BitVec.reduceToNat]
  omega

theorem isGph_iff (op : Desc) : isGph op = true ↔ HighByte op := by
  have h := op.isLt
  unfold isGph HighByte
  rw [and_not_mask op 0x3 2 (by decide), beq_iff_eq, ← BitVec.toNat_inj]
  simp only [BitVec.toNat_shiftLeft, BitVec.toNat_ushiftRight, Nat.shiftLeft_eq, Nat.shiftRight_eq_div_pow,
    BitVec.reduceToNat]
  omega

theorem regCode_toNat (op : Desc) : (regCode op).toNat = op.toNat % 16 := by
  simp [regCode, BitVec.extractLsb'_toNat]

theorem lo3_toNat (op : Desc) : (lo3 op).toNat = op.toNat % 8 := by
  simp [lo3, BitVec.extractLsb'_toNat]

theorem hi1_iff (op : Desc) : hi1 op = true ↔ 8 ≤ op.toNat % 16 := by
  unfold hi1
  rw [BitVec.getLsbD, Nat.testBit_eq_decide_div_mod_eq, decide_eq_true_eq]
  omega

theorem lo3_eq (op : Desc) : lo3 op = op.setWidth 3 := by
  apply BitVec.eq_of_toNat_eq; simp [lo3_toNat]

theorem codeIsGpl_iff (c : Code) : codeIsGpl c = true ↔ 0x100 ≤ c.toNat ∧ c.toNat ≤ 0x10F := by
  have h := c.isLt
  unfold codeIsGpl
  rw [beq_iff_eq, ← BitVec.toNat_inj]
  simp only [BitVec.extractLsb'_toNat, Nat.shiftRight_eq_div_pow, BitVec.reduceToNat]
  omega

theorem codeLo3_toNat (c : Code) : (codeLo3 c).toNat = c.toNat % 8 := by
  simp [codeLo3, BitVec.extractLsb'_toNat]

theorem codeLo3_eq (c : Code) : codeLo3 c = c.setWidth 3 := by
  apply BitVec.eq_of_toNat_eq; simp [codeLo3_toNat]

theorem codeHi1_iff (c : Code) : codeHi1 c = true ↔ 8 ≤ c.toNat % 16 := by
  unfold codeHi1
  rw [BitVec.getLsbD, Nat.testBit_eq_decide_div_mod_eq, decide_eq_true_eq]
  omega

theorem isRex8Gpl_iff (op : Desc) : isRex8Gpl op = true ↔ 0x104 ≤ op.toNat ∧ op.toNat ≤ 0x107 := by
  unfold isRex8Gpl
  simp only [Bool.and_eq_true, Bool.or_eq_true, isGpl_iff, beq_iff_eq, ← BitVec.toNat_inj, regCode_toNat,
    BitVec.reduceToNat]
  omega

/-- What a value that sign extension gives back from its low `w` bytes is: one in the signed range (R150). -/
theorem sextBytes_eq_iff (v : BitVec 64) (w : Nat) (hw : w = 1 ∨ w = 2 ∨ w = 4) :
    sextBytes v w = v ↔ InSignedRange v w := by
  unfold sextBytes InSignedRange
  rw [← BitVec.toInt_inj, BitVec.toInt_signExtend, BitVec.toInt_eq_toNat_bmod, BitVec.toInt_eq_toNat_bmod,
    BitVec.toNat_setWidth]
  have h := v.isLt
  rcases hw with rfl | rfl | rfl <;> norm_num [Int.bmod_def] <;> omega

theorem fits_iff (v : BitVec 64) (w : Nat) (hw : LegalWidth w) : fits v w = true ↔ InSignedRange v w := by
  rcases hw with rfl | rfl | rfl | rfl
  · simpa [fits] using sextBytes_eq_iff v 1 (by simp)
  · simpa [fits] using sextBytes_eq_iff v 2 (by simp)
  · simpa [fits] using sextBytes_eq_iff v 4 (by simp)
  · have h := v.isLt
    simp only [fits, beq_self_eq_true, Bool.true_or, true_iff, InSignedRange]
    rw [BitVec.toInt_eq_toNat_bmod, Int.bmod_def]; omega

theorem rexPresent_iff (f : Flags) : rexPresent f = true ↔ AnyRex f := by
  simp [rexPresent, AnyRex, or_assoc]

end Sys2Proof.Machine
end

