-- ==== Sys2Proof/Laws/Layout.lean ====
section
/-! SUPPORT. The step-by-step emitters against the closed forms of Safety.lean, part by part: bytes, opcode, flags, address. -/

namespace Sys2Proof.Machine

/-! ### Bytes -/

theorem modrmByte_eq (m : BitVec 2) (r b : BitVec 3) : modrmByte m r b = pattern233 m r b := by
  revert m r b; decide

theorem sibByte_eq (m : BitVec 2) (r b : BitVec 3) : sibByte m r b = pattern233 m r b := by
  revert m r b; decide

theorem rexByte_eq (f : Flags) : rexByte f = rexPattern f := by
  unfold rexByte rexPattern
  generalize f.w = w, f.r = r, f.x = x, f.b = b
  revert w r x b; decide

theorem patchLow3_eq (b : Byte) (r : BitVec 3) : patchLow3 b r = pattern53 b r := by
  have hm : ∀ i : Nat, i < 8 → (0xF8 : Byte).getLsbD i = decide (3 ≤ i) := by decide
  apply BitVec.eq_of_getLsbD_eq
  intro i hi
  simp only [patchLow3, pattern53, BitVec.getLsbD_or, BitVec.getLsbD_and, hm i hi, BitVec.getLsbD_setWidth, hi,
    decide_true, Bool.true_and, BitVec.getLsbD_append, BitVec.getLsbD_extractLsb']
  by_cases h : i < 3
  · simp [h, Nat.not_le.2 h]
  · have h3 : 3 ≤ i := Nat.le_of_not_lt h
    have : i - 3 < 5 := by omega
    simp [h, h3, this, Nat.add_sub_of_le h3]

/-! ### Prefixes and opcode -/

theorem prefixBytes_eq (q : Req) : prefixBytes q = layoutPrefixes q := by
  unfold prefixBytes addr32Line segLine layoutPrefixes segByte
  cases q.addr32 <;> cases q.seg <;> rfl

theorem opcEmit_eq (r : Record) (f : Flags) : opcEmit r f = layoutOpcode r f none := by
  unfold opcEmit mpLine rexLine esc0FLine esc38Line esc3ALine opc2Line layoutOpcode
  rw [rexByte_eq]
  by_cases h : AnyRex f
  · have h' := (rexPresent_iff f).2 h
    simp only [h, h', if_true]
    cases r.mp <;> cases r.esc <;> cases r.opc2 <;> rfl
  · have h' : rexPresent f = false := by simpa [← rexPresent_iff] using h
    simp only [h, h', if_false]
    cases r.mp <;> cases r.esc <;> cases r.opc2 <;> rfl

theorem patchLast_opcEmit (r : Record) (f : Flags) (k : BitVec 3) :
    patchLast (opcEmit r f) k = layoutOpcode r f (some k) := by
  rw [opcEmit_eq]
  unfold layoutOpcode
  cases h : r.opc2 with
  | none => rw [patchLast_append, patchLow3_eq]
  | some b =>
    dsimp only
    rw [show [r.opc1, b] = [r.opc1] ++ [b] from rfl, ← List.append_assoc, patchLast_append, patchLow3_eq,
      List.append_assoc]; rfl

/-! ### Flags -/

/-- Exactly which base codes are ordinary bases (R109). -/
theorem baseKind_gpl_iff (rip b : Code) :
    baseKind rip b = .gplBase ↔ b ≠ 0 ∧ b ≠ rip ∧ 0x100 ≤ b.toNat ∧ b.toNat ≤ 0x10F := by
  rw [← codeIsGpl_iff]
  constructor
  · intro h
    unfold baseKind at h
    split at h
    · cases h
    · split at h
      · cases h
      · split at h
        · exact ⟨‹_›, ‹_›, ‹_›⟩
        · cases h
  · rintro ⟨h0, h1, h2⟩
    rw [baseKind, if_neg h0, if_neg h1, if_pos h2]

theorem destFlags_eq (rip : Code) (f : Flags) (dst : Desc) : destFlags rip f dst = soloFlags rip f dst := by
  unfold destFlags soloFlags destX destB
  cases h : isMem dst with
  | false => simp [isReg_eq, h, hi1, Flags.orB]
  | true =>
    have hb : (baseKind rip (memBase dst) == .gplBase) =
        (decide (memBase dst ≠ 0) && decide (memBase dst ≠ rip) && decide (0x100 ≤ (memBase dst).toNat) &&
          decide ((memBase dst).toNat ≤ 0x10F)) := by
      rw [Bool.eq_iff_iff, beq_iff_eq, baseKind_gpl_iff]
      simp only [Bool.and_eq_true, decide_eq_true_eq, and_assoc]
    have hx : (memIndex dst != 0) = decide (memIndex dst ≠ 0) := by
      rw [Bool.eq_iff_iff]; simp only [bne_iff_ne, decide_eq_true_eq]
    simp only [isReg_eq, h, Bool.not_true, Bool.false_eq_true, if_false, if_true, Bool.true_and, hb, hx, codeHi1,
      Flags.orB, Flags.orX]

theorem modrmFlags_regOp (rip : Code) (f : Flags) (dst r : Desc) :
    modrmFlags rip f dst (.regOp r) = pairFlags rip f dst r := by
  unfold modrmFlags; rw [destFlags_eq]; rfl

theorem modrmFlags_const (rip : Code) (f : Flags) (dst : Desc) (k : BitVec 3) :
    modrmFlags rip f dst (.const k) = soloFlags rip f dst := by
  unfold modrmFlags
  rw [destFlags_eq, show f.orR (regSrcHi1 (.const k)) = f by simp [Flags.orR, regSrcHi1]]

theorem orB_eq (f : Flags) (r : Desc) : f.orB (hi1 r) = opcFlags f r := rfl

/-- A legacy high byte is a register (R102). -/
theorem HighByte.isReg {op : Desc} (h : HighByte op) : isReg op = true := by
  have := isMem_iff op
  rcases hm : isMem op with _ | _
  · simp [isReg_eq, hm]
  · have := this.1 hm; omega

theorem gphAny_regOp (dst r : Desc) : gphAny dst (.regOp r) = true ↔ HighByte dst ∨ HighByte r := by
  simp only [gphAny, regSrcGph, Bool.or_eq_true, Bool.and_eq_true, isGph_iff]
  constructor
  · rintro (h | h)
    · exact .inr h
    · exact .inl h.2
  · rintro (h | h)
    · exact .inr ⟨h.isReg, h⟩
    · exact .inl h

theorem gphAny_const (dst : Desc) (k : BitVec 3) : gphAny dst (.const k) = true ↔ HighByte dst := by
  simp only [gphAny, regSrcGph, Bool.false_or, Bool.and_eq_true, isGph_iff]
  exact ⟨fun h => h.2, fun h => ⟨h.isReg, h⟩⟩

/-! ### Addresses -/

theorem scaleCode_ok_iff (sc : BitVec 4) (c : BitVec 2) :
    scaleCode sc = .ok c ↔ (sc = 1 ∨ sc = 2 ∨ sc = 4 ∨ sc = 8) ∧ c = scaleLog sc := by
  revert sc c; unfold scaleCode scaleLog; decide

/-- Exactly which index parts resolve, and to what (R197 to R200). -/
theorem indexForm_ok_iff (i : Code) (sc : BitVec 4) (ix : IndexForm) :
    indexForm i sc = .ok ix ↔
      (i = 0 ∧ ix = ⟨false, 0, 4⟩) ∨
      (i ≠ 0 ∧ codeIsGpl i = true ∧ codeLo3 i ≠ 4 ∧ (sc = 1 ∨ sc = 2 ∨ sc = 4 ∨ sc = 8) ∧
        ix = ⟨true, scaleLog sc, codeLo3 i⟩) := by
  constructor
  · intro h
    by_cases h0 : i = 0
    · rw [indexForm, if_pos h0] at h
      exact .inl ⟨h0, (Except.ok.inj h).symm⟩
    · rw [indexForm, if_neg h0] at h
      cases hg : codeIsGpl i
      · rw [hg, if_pos (by decide)] at h; cases h
      · rw [hg, if_neg (by decide)] at h
        split at h
        · cases h
        · split at h
          · cases h
          · next hl c hs =>
            obtain ⟨h1, rfl⟩ := (scaleCode_ok_iff sc _).1 hs
            exact .inr ⟨h0, rfl, ‹_›, h1, (Except.ok.inj h).symm⟩
  · rintro (⟨h0, rfl⟩ | ⟨h0, hg, hl, hs, rfl⟩)
    · rw [indexForm, if_pos h0]
    · rw [indexForm, if_neg h0, hg, if_neg (by decide), if_neg hl, (scaleCode_ok_iff sc _).2 ⟨hs, rfl⟩]

/-- `mod` of a base in its two descriptions (R205, R206). -/
theorem modFor_eq (rm : BitVec 3) (d : BitVec 64) : modFor rm d = layoutMod rm d := by
  have hf : fits d 1 = true ↔ Short d := fits_iff d 1 (.inl rfl)
  unfold modFor layoutMod
  by_cases h : d = 0 ∧ rm ≠ 5
  · have : Short d := by rw [h.1]; decide
    rw [if_pos h, if_pos this, if_pos h]
  · rw [if_neg h]
    by_cases hs : Short d
    · rw [if_pos (hf.2 hs), if_pos hs, if_neg h]
    · rw [if_neg (fun x => hs (hf.1 x)), if_neg hs]

/-- Exactly which base parts resolve, and to what (R201 to R206). -/
theorem baseForm_ok_iff (rip b : Code) (hasIndex : Bool) (d : BitVec 64) (bs : BaseForm) :
    baseForm rip b hasIndex d = .ok bs ↔
      (b = 0 ∧ bs = ⟨5, 0, true, true⟩) ∨
      (b ≠ 0 ∧ b = rip ∧ hasIndex = false ∧ bs = ⟨5, 0, true, false⟩) ∨
      (b ≠ 0 ∧ b ≠ rip ∧ codeIsGpl b = true ∧ bs = ⟨codeLo3 b, modFor (codeLo3 b) d, false, false⟩) := by
  have hk : baseKind rip b = .noBase ∧ b = 0 ∨ baseKind rip b = .ripRel ∧ b ≠ 0 ∧ b = rip ∨
      baseKind rip b = .gplBase ∧ b ≠ 0 ∧ b ≠ rip ∧ codeIsGpl b = true ∨
      baseKind rip b = .badBase ∧ b ≠ 0 ∧ b ≠ rip ∧ codeIsGpl b = false := by
    unfold baseKind
    by_cases h0 : b = 0
    · exact .inl ⟨if_pos h0, h0⟩
    · rw [if_neg h0]
      by_cases h1 : b = rip
      · exact .inr (.inl ⟨if_pos h1, h0, h1⟩)
      · rw [if_neg h1]
        cases hg : codeIsGpl b
        · exact .inr (.inr (.inr ⟨rfl, h0, h1, rfl⟩))
        · exact .inr (.inr (.inl ⟨rfl, h0, h1, rfl⟩))
  unfold baseForm
  rcases hk with ⟨hk, h0⟩ | ⟨hk, h0, h1⟩ | ⟨hk, h0, h1, hg⟩ | ⟨hk, h0, h1, hg⟩ <;> rw [hk] <;> dsimp only
  · constructor
    · exact fun h => .inl ⟨h0, (Except.ok.inj h).symm⟩
    · rintro (⟨-, rfl⟩ | ⟨h, -⟩ | ⟨h, -⟩)
      · rfl
      · exact absurd h0 h
      · exact absurd h0 h
  · cases hasIndex
    · constructor
      · exact fun h => .inr (.inl ⟨h0, h1, rfl, (Except.ok.inj h).symm⟩)
      · rintro (⟨h, -⟩ | ⟨-, -, -, rfl⟩ | ⟨-, h, -⟩)
        · exact absurd h h0
        · rfl
        · exact absurd h1 h
    · constructor
      · intro h; cases h
      · rintro (⟨h, -⟩ | ⟨-, -, h, -⟩ | ⟨-, h, -⟩)
        · exact absurd h h0
        · cases h
        · exact absurd h1 h
  · constructor
    · exact fun h => .inr (.inr ⟨h0, h1, hg, (Except.ok.inj h).symm⟩)
    · rintro (⟨h, -⟩ | ⟨-, h, -⟩ | ⟨-, -, -, rfl⟩)
      · exact absurd h h0
      · exact absurd h h1
      · rfl
  · constructor
    · intro h; cases h
    · rintro (⟨h, -⟩ | ⟨-, h, -⟩ | ⟨-, -, h, -⟩)
      · exact absurd h h0
      · exact absurd h h1
      · rw [hg] at h; cases h

/-- Every memory destination that resolves is one of the three base forms with one of the two index forms. -/
theorem resolve_mem_iff (rip : Code) (op : Desc) (hm : isMem op = true) (fm : Form) :
    resolve rip op = .ok fm ↔
      ∃ ix bs, indexForm (memIndex op) (memScale op) = .ok ix ∧
        baseForm rip (memBase op) ix.needed (memDisp op) = .ok bs ∧ fm = relocate ix bs := by
  unfold resolve
  rw [isReg_eq, hm, if_neg (by decide)]
  constructor
  · intro h
    split at h
    · cases h
    · next ix hi =>
      split at h
      · cases h
      · next bs hb => exact ⟨ix, bs, hi, hb, (Except.ok.inj h).symm⟩
  · rintro ⟨ix, bs, hi, hb, rfl⟩
    simp only [hi, hb]

theorem resolve_reg (rip : Code) (op : Desc) (hm : isReg op = true) :
    resolve rip op = .ok ⟨3, lo3 op, 0, 0, 4, false⟩ := by
  simp [resolve, hm]

theorem memoryLegal_iff (rip : Code) (op : Desc) :
    MemoryLegal rip op ↔
      (memIndex op ≠ 0 → codeIsGpl (memIndex op) = true ∧ codeLo3 (memIndex op) ≠ 4 ∧
        (memScale op = 1 ∨ memScale op = 2 ∨ memScale op = 4 ∨ memScale op = 8) ∧
        (memBase op = rip → memBase op = 0)) ∧
      (memBase op = 0 ∨ memBase op = rip ∨ codeIsGpl (memBase op) = true) := by
  have h4 : codeLo3 (memIndex op) ≠ 4 ↔ (memIndex op).toNat % 8 ≠ 4 := by
    rw [ne_eq, ← BitVec.toNat_inj, codeLo3_toNat]; rfl
  unfold MemoryLegal
  rw [codeIsGpl_iff, codeIsGpl_iff, h4]
  simp only [and_assoc]

/-- The displacement bytes of a base in their two descriptions (R68). -/
theorem baseDisp_eq (low : BitVec 3) (d : BitVec 64) :
    le d (dispLen false (modFor low d)) = layoutDisp (layoutMod low d) d := by
  rw [← modFor_eq]
  unfold dispLen layoutDisp modFor
  repeat' split
  all_goals first | rfl | simp_all

theorem modFor_ne_three (low : BitVec 3) (d : BitVec 64) : modFor low d ≠ 3 := by
  unfold modFor; repeat' split
  all_goals decide

/-- The bytes of a resolved form with a SIB (R207 to R210). -/
theorem formBytes_sib (fm : Form) (r : BitVec 3) (d : BitVec 64) (hm : fm.mod ≠ 3) (hr : fm.rm = 4) :
    formBytes fm r d =
      [pattern233 fm.mod r 4, pattern233 fm.scale2 fm.idx3 fm.sibBase] ++ le d (dispLen fm.force32 fm.mod) := by
  have : sibFollows fm.mod fm.rm = true := by rw [sibFollows, hr, Bool.and_eq_true]; exact ⟨by simpa using hm, rfl⟩
  rw [formBytes, sibLine, if_pos this, modrmByte_eq, sibByte_eq, hr]; rfl

/-- The bytes of a resolved form without one. -/
theorem formBytes_noSib (fm : Form) (r : BitVec 3) (d : BitVec 64) (hr : fm.rm ≠ 4) :
    formBytes fm r d = [pattern233 fm.mod r fm.rm] ++ le d (dispLen fm.force32 fm.mod) := by
  have : sibFollows fm.mod fm.rm = false := by
    rw [sibFollows, Bool.and_eq_false_iff]; exact .inr (by simpa using hr)
  rw [formBytes, sibLine, this, if_neg (by decide), modrmByte_eq, List.append_nil]

theorem relocate_sib (ix : IndexForm) (bs : BaseForm) (h : ix.needed = true ∨ bs.needSib = true ∨ bs.rm = 4) :
    relocate ix bs = ⟨bs.mod, 4, bs.rm, ix.scale2, ix.idx3, bs.force32⟩ := by
  rw [relocate, if_pos (by simpa [or_assoc] using h)]

theorem relocate_noSib (ix : IndexForm) (bs : BaseForm) (h1 : ix.needed = false) (h2 : bs.needSib = false)
    (h3 : bs.rm ≠ 4) : relocate ix bs = ⟨bs.mod, bs.rm, 0, ix.scale2, ix.idx3, bs.force32⟩ := by
  rw [relocate, if_neg (by simpa [h1, h2] using h3)]

/-- The SIB fields the index part leaves, in closed form (R67). -/
theorem layoutSib_of_index {op : Desc} {ix : IndexForm} (h : indexForm (memIndex op) (memScale op) = .ok ix)
    (b : BitVec 3) : pattern233 ix.scale2 ix.idx3 b = layoutSib op b := by
  rcases (indexForm_ok_iff ..).1 h with ⟨h0, rfl⟩ | ⟨h0, -, -, -, rfl⟩
  · rw [layoutSib, if_pos h0]
  · rw [layoutSib, if_neg h0, codeLo3_eq]

/-- What resolves emits the closed form's ModRM, SIB and displacement. -/
theorem formBytes_eq {rip : Code} {op : Desc} {fm : Form} (h : resolve rip op = .ok fm) (r : BitVec 3) :
    formBytes fm r (memDisp op) = layoutAddress rip r op := by
  cases hm : isMem op with
  | false =>
    have hr : isReg op = true := by simp [isReg_eq, hm]
    rw [resolve_reg rip op hr] at h
    cases h
    rw [layoutAddress, if_pos hr, formBytes, sibLine, if_neg (by simp [sibFollows]), modrmByte_eq, lo3_eq]; rfl
  | true =>
    have hr : isReg op = false := by simp [isReg_eq, hm]
    rw [layoutAddress, hr, if_neg (by decide)]
    obtain ⟨ix, bs, h1, h2, rfl⟩ := (resolve_mem_iff rip op hm fm).1 h
    have hs := layoutSib_of_index h1
    rcases (baseForm_ok_iff ..).1 h2 with ⟨h0, rfl⟩ | ⟨h0, hp, hn, rfl⟩ | ⟨h0, hp, -, rfl⟩
    · rw [if_pos h0, relocate_sib _ _ (.inr (.inl rfl)), formBytes_sib _ _ _ (show (0 : BitVec 2) ≠ 3 by decide) rfl, hs]; rfl
    · rw [if_neg h0, if_pos hp, relocate_noSib _ _ hn rfl (by decide), formBytes_noSib _ _ _ (show (5 : BitVec 3) ≠ 4 by decide)]; rfl
    · rw [if_neg h0, if_neg hp]
      dsimp only
      rw [← codeLo3_eq, ← baseDisp_eq, ← modFor_eq]
      by_cases hx : memIndex op = 0 ∧ codeLo3 (memBase op) ≠ 4
      · have hn : ix.needed = false := by
          rcases (indexForm_ok_iff ..).1 h1 with ⟨-, rfl⟩ | ⟨hi, -⟩
          · rfl
          · exact absurd hx.1 hi
        rw [if_pos hx, relocate_noSib _ _ hn rfl hx.2, formBytes_noSib _ _ _ hx.2]
      · have hn : ix.needed = true ∨ false = true ∨ codeLo3 (memBase op) = 4 := by
          rcases (indexForm_ok_iff ..).1 h1 with ⟨hi, -⟩ | ⟨-, -, -, -, rfl⟩
          · by_cases h4 : codeLo3 (memBase op) = 4
            · exact .inr (.inr h4)
            · exact absurd ⟨hi, h4⟩ hx
          · exact .inl rfl
        rw [if_neg hx, relocate_sib _ _ hn, formBytes_sib _ _ _ (modFor_ne_three _ _) rfl, hs]

/-- A legal destination resolves. -/
theorem resolve_legal {rip : Code} {op : Desc} (h : AddressLegal rip op) : ∃ fm, resolve rip op = .ok fm := by
  cases hm : isMem op with
  | false => exact ⟨_, resolve_reg rip op (by simp [isReg_eq, hm])⟩
  | true =>
    obtain ⟨hx, hb⟩ := (memoryLegal_iff rip op).1 (h hm)
    suffices ∃ ix bs, indexForm (memIndex op) (memScale op) = .ok ix ∧
        baseForm rip (memBase op) ix.needed (memDisp op) = .ok bs by
      obtain ⟨ix, bs, h1, h2⟩ := this
      exact ⟨_, (resolve_mem_iff rip op hm _).2 ⟨ix, bs, h1, h2, rfl⟩⟩
    have hbase : ∀ n : Bool, (n = true → memBase op = rip → memBase op = 0) →
        ∃ bs, baseForm rip (memBase op) n (memDisp op) = .ok bs := by
      intro n hn
      by_cases h0 : memBase op = 0
      · exact ⟨_, (baseForm_ok_iff ..).2 (.inl ⟨h0, rfl⟩)⟩
      · by_cases hp : memBase op = rip
        · have : n = false := by
            cases n
            · rfl
            · exact absurd (hn rfl hp) h0
          exact ⟨_, (baseForm_ok_iff ..).2 (.inr (.inl ⟨h0, hp, this, rfl⟩))⟩
        · refine ⟨_, (baseForm_ok_iff ..).2 (.inr (.inr ⟨h0, hp, ?_, rfl⟩))⟩
          rcases hb with h | h | h
          · exact absurd h h0
          · exact absurd h hp
          · exact h
    by_cases hi : memIndex op = 0
    · obtain ⟨bs, h2⟩ := hbase false (fun h => by cases h)
      exact ⟨_, bs, (indexForm_ok_iff ..).2 (.inl ⟨hi, rfl⟩), h2⟩
    · obtain ⟨hg, hl, hs, hr⟩ := hx hi
      obtain ⟨bs, h2⟩ := hbase true (fun _ => hr)
      exact ⟨_, bs, (indexForm_ok_iff ..).2 (.inr ⟨hi, hg, hl, hs, rfl⟩), h2⟩

/-- A destination that resolves is legal. -/
theorem resolve_only_legal (rip : Code) (op : Desc) {fm : Form} (h : resolve rip op = .ok fm) : AddressLegal rip op := by
  intro hm
  obtain ⟨ix, bs, h1, h2, -⟩ := (resolve_mem_iff rip op hm fm).1 h
  refine (memoryLegal_iff rip op).2 ⟨fun hi => ?_, ?_⟩
  · rcases (indexForm_ok_iff ..).1 h1 with ⟨h0, -⟩ | ⟨-, hg, hl, hs, rfl⟩
    · exact absurd h0 hi
    · refine ⟨hg, hl, hs, fun hr => ?_⟩
      rcases (baseForm_ok_iff ..).1 h2 with ⟨h0, -⟩ | ⟨-, -, hf, -⟩ | ⟨-, hn, -, -⟩
      · exact h0
      · cases hf
      · exact absurd hr hn
  · rcases (baseForm_ok_iff ..).1 h2 with ⟨h0, -⟩ | ⟨-, hr, -⟩ | ⟨-, -, hg, -⟩
    · exact .inl h0
    · exact .inr (.inl hr)
    · exact .inr (.inr hg)

end Sys2Proof.Machine
end

