-- ==== Sys2Proof/Laws/Step.lean ====
section
/-! SUPPORT. What one row and one step can do, said once: the inversion lemmas every invariant is derived from. -/

namespace Sys2Proof.Machine

/-- What a row does to a state, by shape. -/
inductive RowEffect (s : State) : State → Prop
  /-- A field was staged, or its condition did not hold and nothing was. -/
  | staged (bs : List Byte) : RowEffect s (s.stage bs)
  /-- A ModRM byte was staged and is now the one R209 and R210 read. -/
  | modrm (b : Byte) : RowEffect s ((s.stage [b]).latchModrm b)
  /-- A descriptor was looked at. -/
  | viewed (v : View) : RowEffect s (s.latchView v)
  /-- A transaction committed at most `MAXLEN` bytes. -/
  | committed (bs : List Byte) (h : bs.length ≤ 22) : RowEffect s (s.commit bs)
  /-- A transaction failed. -/
  | failed : RowEffect s s.fail

theorem emitConst_ok {s : State} {dst : Desc} {bs : List Byte} (h : emitConst s dst = .ok bs) :
    ∃ k, s.work.record.regc = some k ∧ emitModrm s dst (.const k) = .ok bs := by
  unfold emitConst at h
  split at h
  · cases h
  · next k hk => exact ⟨k, hk, h⟩

theorem emitModrm_length {s : State} {dst : Desc} {rs : RegSrc} {bs : List Byte} (h : emitModrm s dst rs = .ok bs) :
    bs.length ≤ 12 := by
  obtain ⟨-, -, fm, -, rfl⟩ := (modrmEmit_ok_iff ..).1 h
  have := opcEmit_length_le s.work.record (modrmFlags s.params.ripSentinel s.work.flags dst rs)
  have := formBytes_length_le fm (regField rs) (memDisp dst)
  simp only [List.length_append]; omega

theorem regopEmit_length {record : Record} {f : Flags} {r : Desc} {bs : List Byte} (h : regopEmit record f r = .ok bs) :
    bs.length ≤ 6 := by
  obtain ⟨-, -, rfl⟩ := (regopEmit_ok_iff ..).1 h
  rw [patchLast_length]; exact opcEmit_length_le _ _

theorem thenImm_length {body : Except EncodeError (List Byte)} {v : BitVec 64} {w n : Nat} {bs : List Byte}
    (h : thenImm body v w = .ok bs) (hb : ∀ hd, body = .ok hd → hd.length ≤ n) : bs.length ≤ n + 8 := by
  obtain ⟨hd, h1, hw, -, rfl⟩ := (thenImm_ok_iff ..).1 h
  have := hb hd h1
  simp only [List.length_append, le_length]
  rcases hw with rfl | rfl | rfl | rfl <;> omega

/-- A body of at most 20 bytes is committed or failed. -/
theorem runBody_effect {s t : State} {body : Except EncodeError (List Byte)} (hb : ∀ bs, body = .ok bs → bs.length ≤ 20)
    (h : runBody s body = .next t) : RowEffect s t := by
  rcases finish_cases h with ⟨bs, hbs, rfl⟩ | ⟨e, -, rfl⟩
  · refine .committed _ ?_
    have := hb bs hbs
    have := prefixBytes_length_le s.work.req
    simp only [List.length_append]; omega
  · exact .failed

/-- Every row answers a next state. -/
theorem exec_next (i : Instr) (s : State) : ∃ t, exec i s = .next t := by
  have hb : ∀ body, ∃ t, runBody s body = .next t := fun body => by cases body <;> exact ⟨_, rfl⟩
  cases i
  case modrm m r b =>
    show ∃ t, execModrm m r b s = .next t
    unfold execModrm; split <;> exact ⟨_, rfl⟩
  case imm w v =>
    show ∃ t, execImm w v s = .next t
    unfold execImm; split
    · cases immEmit v w <;> exact ⟨_, rfl⟩
    · exact ⟨_, rfl⟩
  all_goals first | exact hb _ | exact ⟨_, rfl⟩

/-- What a row can do: one of the shapes of `RowEffect`. -/
theorem exec_effect {i : Instr} {s t : State} (h : exec i s = .next t) : RowEffect s t := by
  have one : ∀ r f bs, (Except.ok (opcEmit r f) : Except EncodeError (List Byte)) = .ok bs → bs.length ≤ 6 := by
    intro r f bs h; cases h; exact opcEmit_length_le r f
  have const : ∀ d bs, emitConst s d = .ok bs → bs.length ≤ 12 := fun d bs h => by
    obtain ⟨k, -, hk⟩ := emitConst_ok h; exact emitModrm_length hk
  cases i
  case fmtNp =>
    have h : runBody s (.ok (opcEmit s.work.record s.work.flags)) = .next t := h
    exact runBody_effect (fun bs h => by have := one _ _ bs h; omega) h
  case fmtM => exact runBody_effect (fun bs h => by have := const _ bs h; omega) h
  case fmtMi => exact runBody_effect (fun bs h => thenImm_length h (const _)) h
  case fmtMr => exact runBody_effect (fun bs h => by have := emitModrm_length h; omega) h
  case fmtRm => exact runBody_effect (fun bs h => by have := emitModrm_length h; omega) h
  case fmtMri => exact runBody_effect (fun bs h => thenImm_length h fun _ => emitModrm_length) h
  case fmtRmi => exact runBody_effect (fun bs h => thenImm_length h fun _ => emitModrm_length) h
  case fmtI => exact runBody_effect (fun bs h => by have := thenImm_length h (one _ _); omega) h
  case fmtAi => exact runBody_effect (fun bs h => by have := thenImm_length h (one _ _); omega) h
  case fmtO => exact runBody_effect (fun bs h => by have := regopEmit_length h; omega) h
  case fmtOi => exact runBody_effect (fun bs h => by have := thenImm_length h fun _ => regopEmit_length; omega) h
  case fmtAo => exact runBody_effect (fun bs h => by have := regopEmit_length h; omega) h
  case fmtD => exact runBody_effect (fun bs h => by have := thenImm_length h (one _ _); omega) h
  case fmtUnrealized =>
    have h : runBody s (.error .unrealizedFormat) = .next t := h
    exact runBody_effect (fun bs h => by cases h) h
  case modrm m r b =>
    have h : execModrm m r b s = .next t := h
    unfold execModrm at h
    split at h <;> cases h
    · exact .modrm _
    · exact .staged _
  case imm w v =>
    have h : execImm w v s = .next t := h
    unfold execImm at h
    split at h
    · split at h <;> cases h
      · exact .staged _
      · exact .failed
    · cases h; exact .staged _
  case operandReg => cases h; exact .viewed _
  case operandMem => cases h; exact .viewed _
  all_goals (cases h; exact .staged _)

/-! ### Admission -/

/-- The three tests of admission, as a proposition. -/
def Passes (e : Env) (c : Addr) : Prop := capacityOk e c = true ∧ shared e c = false ∧ inputsInside e c = false

theorem whenAdmitted_passes {s : State} (k : State → Result) (h : Passes s.env s.cur) : whenAdmitted s k = k s := by
  simp [whenAdmitted, h.1, h.2.1, h.2.2]

theorem whenAdmitted_next {s t : State} {k : State → Result} (h : whenAdmitted s k = .next t) : Passes s.env s.cur ∧ k s = .next t := by
  unfold whenAdmitted at h
  split at h
  · cases h
  · split at h
    · cases h
    · split at h
      · cases h
      · next h1 h2 h3 => exact ⟨⟨by simpa using h1, by simpa using h2, by simpa using h3⟩, h⟩

/-! ### A step -/

/-- What the start of a transaction can do: fail on an unknown mnemonic, or go on with the registers loaded. -/
theorem openTransaction_next {q : Req} {s t : State} {k : Record → State → Result}
    (h : openTransaction q s k = .next t) :
    Passes s.env s.cur ∧ ((lookup s.params q.mnem = none ∧ t = s.quiesce.fail) ∨
      ∃ r, lookup s.params q.mnem = some r ∧ k r (s.load q r) = .next t) := by
  obtain ⟨hp, h⟩ := whenAdmitted_next h
  refine ⟨hp, ?_⟩
  cases hl : lookup s.params q.mnem with
  | none => left; simp only [hl] at h; exact ⟨rfl, (Host.Outcome.next.inj h).symm⟩
  | some r => right; simp only [hl] at h; exact ⟨r, rfl, h⟩

/-- An admitted request without a record fails (R231). -/
theorem openTransaction_none {q : Req} {s : State} (k : Record → State → Result) (hp : Passes s.env s.cur)
    (hl : lookup s.params q.mnem = none) : openTransaction q s k = .next s.quiesce.fail := by
  rw [openTransaction, whenAdmitted_passes _ hp, hl]

/-- An admitted request with a record goes on with the working registers loaded (R230 to R235). -/
theorem openTransaction_some {q : Req} {s : State} {r : Record} (k : Record → State → Result) (hp : Passes s.env s.cur)
    (hl : lookup s.params q.mnem = some r) : openTransaction q s k = k r (s.load q r) := by
  rw [openTransaction, whenAdmitted_passes _ hp, hl]

/-- An admitted probe of a word that stands for a row runs it. -/
theorem runField_ok {slot : Slot} {bytes : List Byte} {s : State} {i : Instr} (hp : Passes s.env s.cur)
    (hd : decode (.field slot bytes) = .ok i) : runField slot bytes s = exec i s := by
  rw [runField, whenAdmitted_passes _ hp, hd]

/-- What a probe of one field can do: run the row its word decodes to. -/
theorem runField_next {slot : Slot} {bytes : List Byte} {s t : State} (h : runField slot bytes s = .next t) :
    Passes s.env s.cur ∧ ∃ j, decode (.field slot bytes) = .ok j ∧ exec j s = .next t := by
  obtain ⟨hp, h⟩ := whenAdmitted_next h
  refine ⟨hp, ?_⟩
  cases hd : decode (.field slot bytes) with
  | error e => simp [hd] at h
  | ok j => simp only [hd] at h; exact ⟨j, rfl, h⟩

/-- What one step can do, guards included. -/
theorem step_cases {s t : State} (h : step s = .next t) :
    (s.inbox = [] ∧ t = s) ∨
    ∃ i rest, s.inbox = i :: rest ∧
      ((∃ a, i = .moveCursor a ∧ t = (s.take rest).moveCursor a) ∨
       (∃ a b, i = .storeByte a b ∧ t = (s.take rest).storeByte a b) ∨
       (∃ e, i = .setEnv e ∧ t = (s.take rest).setEnv e) ∨
       (i = .reset ∧ t = (s.take rest).quiesce) ∨
       (∃ q, (i = .request q ∨ i = .probeOpen q) ∧ Passes s.env s.cur ∧ lookup s.params q.mnem = none ∧
          t = (s.take rest).quiesce.fail) ∨
       (∃ q r, i = .request q ∧ Passes s.env s.cur ∧ lookup s.params q.mnem = some r ∧
          exec (decodeTag r.fmt) ((s.take rest).load q r) = .next t) ∨
       (∃ q r, i = .probeOpen q ∧ Passes s.env s.cur ∧ lookup s.params q.mnem = some r ∧ t = (s.take rest).load q r) ∨
       (∃ slot bytes j, i = .probeField slot bytes ∧ Passes s.env s.cur ∧ decode (.field slot bytes) = .ok j ∧
          exec j (s.take rest) = .next t)) := by
  unfold step runNext at h
  split at h
  · next he => left; cases h; exact ⟨he, rfl⟩
  · next i rest he =>
    right; refine ⟨i, rest, he, ?_⟩
    cases i with
    | moveCursor a => left; cases h; exact ⟨a, rfl, rfl⟩
    | storeByte a b => right; left; cases h; exact ⟨a, b, rfl, rfl⟩
    | setEnv e => right; right; left; cases h; exact ⟨e, rfl, rfl⟩
    | reset => right; right; right; left; cases h; exact ⟨rfl, rfl⟩
    | request q =>
      obtain ⟨hp, ⟨hl, ht⟩ | ⟨r, hl, ht⟩⟩ := openTransaction_next (show openTransaction q _ _ = _ from h)
      · right; right; right; right; left; exact ⟨q, .inl rfl, hp, hl, ht⟩
      · right; right; right; right; right; left; exact ⟨q, r, rfl, hp, hl, ht⟩
    | probeOpen q =>
      obtain ⟨hp, ⟨hl, ht⟩ | ⟨r, hl, ht⟩⟩ := openTransaction_next (show openTransaction q _ _ = _ from h)
      · right; right; right; right; left; exact ⟨q, .inr rfl, hp, hl, ht⟩
      · right; right; right; right; right; right; left
        exact ⟨q, r, rfl, hp, hl, (Host.Outcome.next.inj ht).symm⟩
    | probeField slot bytes =>
      obtain ⟨hp, j, hd, ht⟩ := runField_next (show runField slot bytes _ = _ from h)
      right; right; right; right; right; right; right; exact ⟨slot, bytes, j, rfl, hp, hd, ht⟩

end Sys2Proof.Machine
end

