-- ==== Sys2Proof/Laws/Outcome.lean ====
section
/-! SUPPORT. The two ends of a transaction, byte by byte, and the admission tests and the lookup in the caller's terms. -/

namespace Sys2Proof.Machine

/-- Fewer addresses are easier to be outside of. -/
theorem Outside.mono {a : Nat} {c : Addr} {m n : Nat} (h : Outside a c n) (hm : m ≤ n) : Outside a c m :=
  fun k hk => h k (Nat.lt_of_lt_of_le hk hm)

/-- Without a wrap the `k`-th address is `c + k` (R47). -/
theorem addr_toNat {c : Addr} {k : Nat} (h : c.toNat + k < 2 ^ 64) : (c + BitVec.ofNat 64 k).toNat = c.toNat + k := by
  have hk : k < 2 ^ 64 := by omega
  rw [BitVec.toNat_add, BitVec.toNat_ofNat, Nat.mod_eq_of_lt hk, Nat.mod_eq_of_lt h]

@[simp] theorem freeBytes_length (d : Nat) : (freeBytes d).length = 22 := by
  simp [freeBytes, Config.maxLen]

theorem freeBytes_getElem (d k : Nat) (h : k < (freeBytes d).length) : (freeBytes d)[k] = Config.freeByte (d + k) := by
  simp [freeBytes]

/-- A failure reaches the `MAXLEN` addresses at the cursor and no other (R43). -/
theorem fail_read_outside {s : State} {a : Nat} (h : Outside a s.work.cur0 22) : s.fail.buf.read a = s.buf.read a := by
  rw [State.fail_buf]
  exact writeBytes_read_outside _ _ _ _ (by rw [freeBytes_length]; exact h)

/-- What a failure leaves there: the draws from the counter on. -/
theorem fail_read_inside {s : State} {k : Nat} (hk : k < 22) :
    s.fail.buf.read (s.work.cur0 + BitVec.ofNat 64 k).toNat = some (Config.freeByte (s.draws + k)) := by
  rw [State.fail_buf, writeBytes_read_inside _ _ _ k (by rw [freeBytes_length]; exact hk)
    (by rw [freeBytes_length]; omega), freeBytes_getElem]

/-- A commit reaches no address past its bytes (R42). -/
theorem commit_read_outside {s : State} {bs : List Byte} {a : Nat} (h : Outside a s.work.cur0 bs.length) :
    (s.commit bs).buf.read a = s.buf.read a := writeBytes_read_outside _ _ _ _ h

/-- What a commit leaves there (R42, R45). -/
theorem commit_read_inside {s : State} {bs : List Byte} {k : Nat} (hk : k < bs.length) (hl : bs.length ≤ 22) :
    (s.commit bs).buf.read (s.work.cur0 + BitVec.ofNat 64 k).toNat = some bs[k] :=
  writeBytes_read_inside _ _ _ k hk (by omega)

/-! ### Admission and lookup -/

theorem regionHolds_iff (r : Region) (a : Nat) : regionHolds r a = true ↔ r.base ≤ a ∧ a < r.base + r.size := by
  simp [regionHolds]

theorem anyHolds_iff (rs : List Region) (a : Nat) :
    anyHolds rs a = true ↔ ∃ r ∈ rs, r.base ≤ a ∧ a < r.base + r.size := by
  simp [anyHolds, regionHolds_iff]

theorem capacityOk_iff (e : Env) (c : Addr) :
    capacityOk e c = true ↔ c.toNat + 22 < 2 ^ 64 ∧
      ∀ k : Nat, k < 22 → ∃ r ∈ e.writable, r.base ≤ c.toNat + k ∧ c.toNat + k < r.base + r.size := by
  unfold capacityOk reach
  rw [Bool.and_eq_true, decide_eq_true_eq]
  simp [Config.maxLen, anyHolds_iff]

theorem shared_iff (e : Env) (c : Addr) :
    shared e c = true ↔ ∃ k : Nat, k < 22 ∧ ∃ r ∈ e.busy, r.base ≤ c.toNat + k ∧ c.toNat + k < r.base + r.size := by
  simp [shared, reach, Config.maxLen, anyHolds_iff]

theorem inputsInside_iff (e : Env) (c : Addr) :
    inputsInside e c = true ↔
      ∃ k : Nat, k < 22 ∧ ∃ r ∈ e.inputs, r.base ≤ c.toNat + k ∧ c.toNat + k < r.base + r.size := by
  simp [inputsInside, reach, Config.maxLen, anyHolds_iff]

/-- The three tests of admission are the caller's conditions. -/
theorem passes_iff (s : State) : Passes s.env s.cur ↔ s.Admitted := by
  have hb := shared_iff s.env s.cur
  have hi := inputsInside_iff s.env s.cur
  unfold Passes State.Admitted
  rw [capacityOk_iff, ← Bool.not_eq_true, ← Bool.not_eq_true, hb, hi]
  constructor
  · rintro ⟨⟨hc, hw⟩, hb, hi⟩
    exact ⟨hc, fun k hk => ⟨hw k hk, fun r hr h => hb ⟨k, hk, r, hr, h⟩, fun r hr h => hi ⟨k, hk, r, hr, h⟩⟩⟩
  · rintro ⟨hc, h⟩
    exact ⟨⟨hc, fun k hk => (h k hk).1⟩, fun ⟨k, hk, r, hr, x⟩ => (h k hk).2.1 r hr x,
      fun ⟨k, hk, r, hr, x⟩ => (h k hk).2.2 r hr x⟩

/-- The lookup answers the first pair of the mnemonic (R231). -/
theorem lookup_eq (p : Params) (m : Nat) : lookup p m = tableRecord p.table m := by
  unfold lookup
  induction p.table with
  | nil => rfl
  | cons c t ih =>
    obtain ⟨k, r⟩ := c
    rw [List.lookup_cons, tableRecord, ih]
    by_cases h : k = m
    · simp [h]
    · simp [h, show (m == k) = false by simpa using fun e => h e.symm]

end Sys2Proof.Machine
end

