-- ==== Sys2Proof/Laws/Formats.lean ====
section
/-! SUPPORT. The bodies of the formats against their closed forms: for each emitter, exactly when it succeeds, and with which
bytes after the prefixes. -/

namespace Sys2Proof.Machine

theorem hasImm_iff (f : BitVec 8) : hasImm f = true ↔ f.toNat ∈ [2, 5, 6, 7, 8, 10, 12] := by
  revert f; decide

/-- The ModRM emitter with a register source succeeds exactly on a legal pair (R211). -/
theorem emitModrm_regOp_ok {s : State} {dst r : Desc} :
    (∃ bs, emitModrm s dst (.regOp r) = .ok bs) ↔ s.job.PairLegal dst r := by
  unfold emitModrm
  constructor
  · rintro ⟨bs, h⟩
    obtain ⟨h1, h2, fm, h3, -⟩ := (modrmEmit_ok_iff ..).1 h
    refine ⟨h1, resolve_only_legal _ _ h3, ?_⟩
    rw [modrmFlags_regOp, rexPresent_iff, gphAny_regOp] at h2
    intro ha op hop hb
    simp only [List.mem_cons, List.not_mem_nil, or_false] at hop
    rcases hop with rfl | rfl
    · exact h2 ⟨ha, .inl hb⟩
    · exact h2 ⟨ha, .inr hb⟩
  · rintro ⟨h1, h2, h3⟩
    obtain ⟨fm, hfm⟩ := resolve_legal h2
    refine ⟨_, (modrmEmit_ok_iff ..).2 ⟨h1, ?_, fm, hfm, rfl⟩⟩
    rw [modrmFlags_regOp, rexPresent_iff, gphAny_regOp]
    rintro ⟨ha, hb | hb⟩
    · exact h3 ha dst (by simp) hb
    · exact h3 ha r (by simp) hb

/-- Its bytes, after the prefixes. -/
theorem emitModrm_regOp_bytes {s : State} {dst r : Desc} {bs : List Byte} (h : emitModrm s dst (.regOp r) = .ok bs) :
    prefixBytes s.work.req ++ bs = s.job.pair dst r := by
  obtain ⟨h1, h2, fm, h3, rfl⟩ := (modrmEmit_ok_iff ..).1 h
  rw [prefixBytes_eq, opcEmit_eq, formBytes_eq h3, modrmFlags_regOp]
  simp only [Job.pair, Job.head, List.append_assoc, regField, lo3_eq]; rfl

/-- The ModRM emitter with a constant succeeds exactly on a legal destination (R211). -/
theorem emitModrm_const_ok {s : State} {dst : Desc} {k : BitVec 3} :
    (∃ bs, emitModrm s dst (.const k) = .ok bs) ↔ s.job.SoloLegal dst := by
  unfold emitModrm
  constructor
  · rintro ⟨bs, h⟩
    obtain ⟨h1, h2, fm, h3, -⟩ := (modrmEmit_ok_iff ..).1 h
    refine ⟨resolve_only_legal _ _ h3, ?_⟩
    rw [modrmFlags_const, rexPresent_iff, gphAny_const] at h2
    intro ha op hop hb
    rw [List.mem_singleton] at hop
    subst hop
    exact h2 ⟨ha, hb⟩
  · rintro ⟨h2, h3⟩
    obtain ⟨fm, hfm⟩ := resolve_legal h2
    refine ⟨_, (modrmEmit_ok_iff ..).2 ⟨rfl, ?_, fm, hfm, rfl⟩⟩
    rw [modrmFlags_const, rexPresent_iff, gphAny_const]
    rintro ⟨ha, hb⟩
    exact h3 ha dst (by simp) hb

/-- Its bytes, after the prefixes. -/
theorem emitModrm_const_bytes {s : State} {dst : Desc} {k : BitVec 3} {bs : List Byte}
    (h : emitModrm s dst (.const k) = .ok bs) : prefixBytes s.work.req ++ bs = s.job.solo dst k := by
  obtain ⟨h1, h2, fm, h3, rfl⟩ := (modrmEmit_ok_iff ..).1 h
  rw [prefixBytes_eq, opcEmit_eq, formBytes_eq h3, modrmFlags_const]
  simp only [Job.solo, Job.head, List.append_assoc, regField]; rfl

/-- The register-in-opcode emitter succeeds exactly on a legal register (R170, R172). -/
theorem regopEmit_ok {s : State} {r : Desc} :
    (∃ bs, regopEmit s.work.record s.work.flags r = .ok bs) ↔ s.job.RegLegal r := by
  constructor
  · rintro ⟨bs, h⟩
    obtain ⟨h1, h2, -⟩ := (regopEmit_ok_iff ..).1 h
    refine ⟨by simp [isReg_eq, h1], ?_⟩
    rw [orB_eq, rexPresent_iff, isGph_iff] at h2
    intro ha op hop hb
    rw [List.mem_singleton] at hop
    subst hop
    exact h2 ⟨ha, hb⟩
  · rintro ⟨h1, h2⟩
    refine ⟨_, (regopEmit_ok_iff ..).2 ⟨by simpa [isReg_eq] using h1, ?_, rfl⟩⟩
    rw [orB_eq, rexPresent_iff, isGph_iff]
    rintro ⟨ha, hb⟩
    exact h2 ha r (by simp) hb

/-- Its bytes, after the prefixes. -/
theorem regopEmit_bytes {s : State} {r : Desc} {bs : List Byte}
    (h : regopEmit s.work.record s.work.flags r = .ok bs) : prefixBytes s.work.req ++ bs = s.job.regHead r := by
  obtain ⟨h1, h2, rfl⟩ := (regopEmit_ok_iff ..).1 h
  rw [prefixBytes_eq, patchLast_opcEmit, orB_eq, lo3_eq]; rfl

/-- The opcode emitter's bytes, after the prefixes. -/
theorem opcEmit_bytes (s : State) :
    prefixBytes s.work.req ++ opcEmit s.work.record s.work.flags = s.job.head s.work.flags := by
  rw [prefixBytes_eq, opcEmit_eq]; rfl

/-- The displacement of format D in its two descriptions (R153). -/
theorem relDisp_eq (s : State) :
    relDisp s.params.jmpSentinel s.work.req.op0
      (relEnd s.work.cur0 ((prefixBytes s.work.req).length + (opcEmit s.work.record s.work.flags).length)
        s.work.record.immsz) = s.job.rel := by
  unfold relDisp relEnd Job.rel layoutRel
  have := congrArg List.length (opcEmit_bytes s)
  rw [List.length_append] at this
  rw [show s.job.head s.job.flags = s.job.head s.work.flags from rfl, ← this, BitVec.add_assoc, ← BitVec.ofNat_add]; rfl

/-- An immediate is emitted exactly when it is legal (R150, R151). -/
theorem immEmit_ok (v : BitVec 64) (w : Nat) : (∃ bs, immEmit v w = .ok bs) ↔ ImmLegal v w := by
  constructor
  · rintro ⟨bs, h⟩
    obtain ⟨hw, hf, -⟩ := (immEmit_ok_iff v w bs).1 h
    exact ⟨hw, (fits_iff v w hw).1 hf⟩
  · rintro ⟨hw, hf⟩
    exact ⟨_, (immEmit_ok_iff v w _).2 ⟨hw, (fits_iff v w hw).2 hf, rfl⟩⟩

/-- A body that succeeds is committed after the prefixes. -/
theorem runBody_ok {s : State} {body : Except EncodeError (List Byte)} {bs S : List Byte} (h : body = .ok bs)
    (hS : prefixBytes s.work.req ++ bs = S) : runBody s body = .next (s.commit S) := by
  subst h hS; rfl

/-- A body that does not succeed fails the transaction. -/
theorem runBody_fail {s : State} {body : Except EncodeError (List Byte)} (h : ∀ bs, body ≠ .ok bs) :
    runBody s body = .next s.fail := by
  cases body with
  | error e => rfl
  | ok bs => exact absurd rfl (h bs)

/-- With a legal immediate after it. -/
theorem runBody_thenImm {s : State} {body : Except EncodeError (List Byte)} {bs S : List Byte} {v : BitVec 64} {w : Nat}
    (h : body = .ok bs) (hi : ImmLegal v w) (hS : prefixBytes s.work.req ++ bs = S) :
    runBody s (thenImm body v w) = .next (s.commit (S ++ le v w)) :=
  runBody_ok ((thenImm_ok_iff ..).2 ⟨bs, h, hi.1, (fits_iff v w hi.1).2 hi.2, rfl⟩) (by rw [← hS, List.append_assoc])

/-- Without a legal immediate, or without the part before it, the transaction fails. -/
theorem runBody_thenImm_fail {s : State} {body : Except EncodeError (List Byte)} {v : BitVec 64} {w : Nat}
    (h : (∀ bs, body ≠ .ok bs) ∨ ¬ ImmLegal v w) : runBody s (thenImm body v w) = .next s.fail := by
  refine runBody_fail fun bs hb => ?_
  obtain ⟨hd, h1, hw, hf, -⟩ := (thenImm_ok_iff ..).1 hb
  rcases h with h | h
  · exact h hd h1
  · exact h ⟨hw, (fits_iff v w hw).1 hf⟩

/-! ### Every format at once -/

theorem opcEmit_length_pos (r : Record) (f : Flags) : 1 ≤ (opcEmit r f).length := by
  rw [opcEmit_length]; omega

/-- Every format tag runs a body around the prefixes, and a body that succeeds is 1 to 20 bytes long (R236 to R252). -/
theorem exec_decodeTag (tag : Byte) (s : State) :
    ∃ body, exec (decodeTag tag) s = runBody s body ∧ ∀ bs, body = .ok bs → 1 ≤ bs.length ∧ bs.length ≤ 20 := by
  have hm : ∀ dst rs bs, emitModrm s dst rs = .ok bs → 1 ≤ bs.length ∧ bs.length ≤ 12 := by
    intro dst rs bs hb
    have h12 := emitModrm_length hb
    obtain ⟨-, -, fm, -, rfl⟩ := (modrmEmit_ok_iff ..).1 hb
    have := opcEmit_length_pos s.work.record (modrmFlags s.params.ripSentinel s.work.flags dst rs)
    rw [List.length_append] at h12 ⊢
    omega
  have hc : ∀ dst bs, emitConst s dst = .ok bs → 1 ≤ bs.length ∧ bs.length ≤ 12 := fun d bs h => by
    obtain ⟨k, -, hk⟩ := emitConst_ok h; exact hm _ _ _ hk
  have hr : ∀ r bs, regopEmit s.work.record s.work.flags r = .ok bs → 1 ≤ bs.length ∧ bs.length ≤ 12 := by
    intro r bs hb
    have h6 := regopEmit_length hb
    obtain ⟨-, -, rfl⟩ := (regopEmit_ok_iff ..).1 hb
    rw [patchLast_length] at h6 ⊢
    exact ⟨opcEmit_length_pos _ _, by omega⟩
  have ho : ∀ bs, (Except.ok (opcEmit s.work.record s.work.flags) : Except EncodeError (List Byte)) = .ok bs →
      1 ≤ bs.length ∧ bs.length ≤ 12 := by
    intro bs h
    obtain rfl := Except.ok.inj h
    exact ⟨opcEmit_length_pos _ _, Nat.le_trans (opcEmit_length_le _ _) (by decide)⟩
  have one : ∀ {body : Except EncodeError (List Byte)}, (∀ bs, body = .ok bs → 1 ≤ bs.length ∧ bs.length ≤ 12) →
      ∀ bs, body = .ok bs → 1 ≤ bs.length ∧ bs.length ≤ 20 := fun h bs hb => by
    have := h bs hb; omega
  have imm : ∀ {body : Except EncodeError (List Byte)} {v : BitVec 64} {w : Nat},
      (∀ bs, body = .ok bs → 1 ≤ bs.length ∧ bs.length ≤ 12) →
      ∀ bs, thenImm body v w = .ok bs → 1 ≤ bs.length ∧ bs.length ≤ 20 := fun h bs hb => by
    have h20 := thenImm_length hb fun hd hh => (h hd hh).2
    obtain ⟨hd, h1, -, -, rfl⟩ := (thenImm_ok_iff ..).1 hb
    have := h hd h1
    rw [List.length_append] at h20 ⊢
    omega
  unfold decodeTag
  split
  · exact ⟨_, rfl, one ho⟩
  · exact ⟨_, rfl, one (hc _)⟩
  · exact ⟨_, rfl, imm (hc _)⟩
  · exact ⟨_, rfl, one (hm _ _)⟩
  · exact ⟨_, rfl, one (hm _ _)⟩
  · exact ⟨_, rfl, imm (hm _ _)⟩
  · exact ⟨_, rfl, imm (hm _ _)⟩
  · exact ⟨_, rfl, imm ho⟩
  · exact ⟨_, rfl, imm ho⟩
  · exact ⟨_, rfl, one (hr _)⟩
  · exact ⟨_, rfl, imm (hr _)⟩
  · exact ⟨_, rfl, one (hr _)⟩
  · exact ⟨_, rfl, imm ho⟩
  · exact ⟨.error .unrealizedFormat, rfl, fun bs h => nomatch h⟩

/-- Every format tag ends its transaction in a commit of 1 to 22 bytes or in the failure outcome (R238). -/
theorem exec_decodeTag_cases {tag : Byte} {s t : State} (h : exec (decodeTag tag) s = .next t) :
    (∃ bs : List Byte, 1 ≤ bs.length ∧ bs.length ≤ 22 ∧ t = s.commit bs) ∨ t = s.fail := by
  obtain ⟨body, hb, hl⟩ := exec_decodeTag tag s
  rcases finish_cases (hb ▸ h) with ⟨bs, h1, rfl⟩ | ⟨e, -, rfl⟩
  · have := hl bs h1
    have := prefixBytes_length_le s.work.req
    exact .inl ⟨_, by rw [List.length_append]; omega, by rw [List.length_append]; omega, rfl⟩
  · exact .inr rfl

end Sys2Proof.Machine
end

