-- ==== Sys2Proof/Laws/Length.lean ====
section
/-! SUPPORT. How long the parts of a transaction's closed form are (R75): one lemma per part. -/

namespace Sys2Proof.Machine

theorem layoutPrefixes_length (q : Req) :
    (layoutPrefixes q).length = (if q.addr32 then 1 else 0) + (if q.seg = .none then 0 else 1) := by
  unfold layoutPrefixes
  cases q.addr32 <;> cases q.seg <;> rfl

theorem layoutOpcode_length (r : Record) (f : Flags) (p : Option (BitVec 3)) :
    (layoutOpcode r f p).length =
      (if r.mp = .none then 0 else 1) + (if AnyRex f then 1 else 0) + escLen r.esc + 1 + (if r.opc2 = none then 0 else 1) := by
  unfold layoutOpcode
  by_cases h : AnyRex f <;> simp only [h, if_true, if_false] <;>
    cases r.mp <;> cases r.esc <;> cases r.opc2 <;> cases p <;> rfl

/-- The formula's two last summands stand apart. -/
theorem lengthFormula_add (q : Req) (r : Record) (f : Flags) (m n : Nat) :
    lengthFormula q r f m n = lengthFormula q r f 0 0 + m + n := by
  unfold lengthFormula; omega

/-- Prefixes and opcode take at most 8 bytes. -/
theorem lengthFormula_le (q : Req) (r : Record) (f : Flags) : lengthFormula q r f 0 0 ≤ 8 := by
  unfold lengthFormula
  cases r.esc <;> dsimp only [escLen] <;> (repeat' split) <;> omega

theorem Job.head_length (j : Job) (f : Flags) : (j.head f).length = lengthFormula j.req j.record f 0 0 := by
  unfold Job.head lengthFormula
  rw [List.length_append, layoutPrefixes_length, layoutOpcode_length]; omega

theorem Job.regHead_length (j : Job) (r : Desc) :
    (j.regHead r).length = lengthFormula j.req j.record (opcFlags j.flags r) 0 0 := by
  unfold Job.regHead lengthFormula
  rw [List.length_append, layoutPrefixes_length, layoutOpcode_length]; omega

theorem layoutMod_cases (low : BitVec 3) (d : BitVec 64) : layoutMod low d = 0 ∨ layoutMod low d = 1 ∨ layoutMod low d = 2 := by
  unfold layoutMod
  repeat' split
  all_goals simp

/-- A destination's bytes start with a ModRM byte, and their number follows from it and from the base (R68, R209). -/
theorem layoutAddress_length (rip : Code) (r : BitVec 3) (op : Desc) :
    ∃ (md : BitVec 2) (g rm : BitVec 3) (rest : List Byte), layoutAddress rip r op = (md ++ g ++ rm : BitVec 8) :: rest ∧
      (layoutAddress rip r op).length = 1 + (if md ≠ 3 ∧ rm = 4 then 1 else 0) +
        (if isMem op = true ∧ (memBase op = 0 ∨ memBase op = rip) then 4 else if md = 1 then 1 else if md = 2 then 4 else 0) := by
  unfold layoutAddress
  by_cases hr : isReg op = true
  · have : isMem op = false := by simpa [isReg_eq] using hr
    exact ⟨3, r, op.setWidth 3, [], by rw [if_pos hr]; rfl, by simp [hr, this]⟩
  have hm : isMem op = true := by simpa [isReg_eq] using hr
  rw [if_neg hr]
  by_cases h0 : memBase op = 0
  · rw [if_pos h0]
    exact ⟨0, r, 4, _, rfl, by rw [if_pos ⟨by decide, rfl⟩, if_pos ⟨hm, .inl h0⟩]; simp⟩
  rw [if_neg h0]
  by_cases hp : memBase op = rip
  · rw [if_pos hp]
    exact ⟨0, r, 5, _, rfl, by rw [if_neg (by decide), if_pos ⟨hm, .inr hp⟩]; simp⟩
  rw [if_neg hp]
  have hno : ¬ (isMem op = true ∧ (memBase op = 0 ∨ memBase op = rip)) := fun h => h.2.elim h0 hp
  have hmod := layoutMod_cases ((memBase op).setWidth 3) (memDisp op)
  dsimp only
  generalize layoutMod ((memBase op).setWidth 3) (memDisp op) = md at hmod
  have hd : (layoutDisp md (memDisp op)).length = (if md = 1 then 1 else if md = 2 then 4 else 0) := by
    unfold layoutDisp; rcases hmod with rfl | rfl | rfl <;> simp
  have h3 : md ≠ 3 := by rcases hmod with rfl | rfl | rfl <;> decide
  by_cases hx : memIndex op = 0 ∧ (memBase op).setWidth 3 ≠ (4 : BitVec 3)
  · rw [if_pos hx]
    exact ⟨md, r, _, _, rfl, by rw [if_neg (fun h => hx.2 h.2), if_neg hno, List.length_append, hd]; simp⟩
  · rw [if_neg hx]
    exact ⟨md, r, 4, _, rfl, by rw [if_pos ⟨h3, rfl⟩, if_neg hno, List.length_append, hd]; simp⟩

end Sys2Proof.Machine
end

