-- ==== Sys2Proof/Laws/PerInstr.lean ====
section
/-! SUPPORT. One statement about the syntax of every row: its word has the number of bytes the "bytes" column of rule R60, the
tags of R73 and the 64-bit descriptors of R70 and R71 give it. -/

namespace Sys2Proof.Laws

/-- The number of bytes of a word (a format tag takes one, log 6). -/
def wordBytes : RowWord → Nat
  | .tag _ => 1
  | .field _ bytes => bytes.length

/-- The number of bytes the spec gives a row. -/
def rowBytes : Instr → Nat
  | .disp32 _ => 4
  | .imm w _ => w
  | .operandReg _ _ | .operandMem _ _ _ _ _ => 8
  | .fmtNp | .fmtM | .fmtMi | .fmtMr | .fmtRm | .fmtMri | .fmtRmi | .fmtI | .fmtAi | .fmtO | .fmtOi | .fmtAo | .fmtD
  | .fmtUnrealized _ | .prefixAddr32 | .prefixSegEs | .prefixSegCs | .prefixSegSs | .prefixSegDs | .prefixSegFs
  | .prefixSegGs | .prefixMp66 | .prefixMpF2 | .prefixMpF3 | .rex _ _ _ _ | .esc0F | .esc38 | .esc3A | .opc1 _
  | .opc1Reg _ _ | .opc2 _ | .modrm _ _ _ | .sib _ _ _ | .disp8 _ => 1

/-- The word of a well-formed row has the row's number of bytes, and that is 1, 2, 4 or 8. -/
def FieldSize.Statement (i : Instr) : Prop := WellFormed i → wordBytes (encode i) = rowBytes i ∧ LegalWidth (rowBytes i)

theorem FieldSize.fmtNp : FieldSize.Statement .fmtNp := fun _ => ⟨rfl, .inl rfl⟩
theorem FieldSize.fmtM : FieldSize.Statement .fmtM := fun _ => ⟨rfl, .inl rfl⟩
theorem FieldSize.fmtMi : FieldSize.Statement .fmtMi := fun _ => ⟨rfl, .inl rfl⟩
theorem FieldSize.fmtMr : FieldSize.Statement .fmtMr := fun _ => ⟨rfl, .inl rfl⟩
theorem FieldSize.fmtRm : FieldSize.Statement .fmtRm := fun _ => ⟨rfl, .inl rfl⟩
theorem FieldSize.fmtMri : FieldSize.Statement .fmtMri := fun _ => ⟨rfl, .inl rfl⟩
theorem FieldSize.fmtRmi : FieldSize.Statement .fmtRmi := fun _ => ⟨rfl, .inl rfl⟩
theorem FieldSize.fmtI : FieldSize.Statement .fmtI := fun _ => ⟨rfl, .inl rfl⟩
theorem FieldSize.fmtAi : FieldSize.Statement .fmtAi := fun _ => ⟨rfl, .inl rfl⟩
theorem FieldSize.fmtO : FieldSize.Statement .fmtO := fun _ => ⟨rfl, .inl rfl⟩
theorem FieldSize.fmtOi : FieldSize.Statement .fmtOi := fun _ => ⟨rfl, .inl rfl⟩
theorem FieldSize.fmtAo : FieldSize.Statement .fmtAo := fun _ => ⟨rfl, .inl rfl⟩
theorem FieldSize.fmtD : FieldSize.Statement .fmtD := fun _ => ⟨rfl, .inl rfl⟩
theorem FieldSize.fmtUnrealized (t : BitVec 8) : FieldSize.Statement (.fmtUnrealized t) := fun _ => ⟨rfl, .inl rfl⟩
theorem FieldSize.prefixAddr32 : FieldSize.Statement .prefixAddr32 := fun _ => ⟨rfl, .inl rfl⟩
theorem FieldSize.prefixSegEs : FieldSize.Statement .prefixSegEs := fun _ => ⟨rfl, .inl rfl⟩
theorem FieldSize.prefixSegCs : FieldSize.Statement .prefixSegCs := fun _ => ⟨rfl, .inl rfl⟩
theorem FieldSize.prefixSegSs : FieldSize.Statement .prefixSegSs := fun _ => ⟨rfl, .inl rfl⟩
theorem FieldSize.prefixSegDs : FieldSize.Statement .prefixSegDs := fun _ => ⟨rfl, .inl rfl⟩
theorem FieldSize.prefixSegFs : FieldSize.Statement .prefixSegFs := fun _ => ⟨rfl, .inl rfl⟩
theorem FieldSize.prefixSegGs : FieldSize.Statement .prefixSegGs := fun _ => ⟨rfl, .inl rfl⟩
theorem FieldSize.prefixMp66 : FieldSize.Statement .prefixMp66 := fun _ => ⟨rfl, .inl rfl⟩
theorem FieldSize.prefixMpF2 : FieldSize.Statement .prefixMpF2 := fun _ => ⟨rfl, .inl rfl⟩
theorem FieldSize.prefixMpF3 : FieldSize.Statement .prefixMpF3 := fun _ => ⟨rfl, .inl rfl⟩
theorem FieldSize.rex (w r x b : Bool) : FieldSize.Statement (.rex w r x b) := fun _ => ⟨rfl, .inl rfl⟩
theorem FieldSize.esc0F : FieldSize.Statement .esc0F := fun _ => ⟨rfl, .inl rfl⟩
theorem FieldSize.esc38 : FieldSize.Statement .esc38 := fun _ => ⟨rfl, .inl rfl⟩
theorem FieldSize.esc3A : FieldSize.Statement .esc3A := fun _ => ⟨rfl, .inl rfl⟩
theorem FieldSize.opc1 (o : Byte) : FieldSize.Statement (.opc1 o) := fun _ => ⟨rfl, .inl rfl⟩
theorem FieldSize.opc1Reg (o : BitVec 5) (r : BitVec 3) : FieldSize.Statement (.opc1Reg o r) := fun _ => ⟨rfl, .inl rfl⟩
theorem FieldSize.opc2 (p : Byte) : FieldSize.Statement (.opc2 p) := fun _ => ⟨rfl, .inl rfl⟩
theorem FieldSize.modrm (m : BitVec 2) (r b : BitVec 3) : FieldSize.Statement (.modrm m r b) := fun _ => ⟨rfl, .inl rfl⟩
theorem FieldSize.sib (s : BitVec 2) (i b : BitVec 3) : FieldSize.Statement (.sib s i b) := fun _ => ⟨rfl, .inl rfl⟩
theorem FieldSize.disp8 (d : Byte) : FieldSize.Statement (.disp8 d) := fun _ => ⟨rfl, .inl rfl⟩
theorem FieldSize.disp32 (d : BitVec 32) : FieldSize.Statement (.disp32 d) := fun _ => ⟨le_length _ _, .inr (.inr (.inl rfl))⟩
theorem FieldSize.imm (w : Nat) (v : BitVec 64) : FieldSize.Statement (.imm w v) :=
  fun h => ⟨le_length _ _, (of_decide_eq_true h).1⟩
theorem FieldSize.operandReg (c : BitVec 59) (k : BitVec 4) : FieldSize.Statement (.operandReg c k) :=
  fun _ => ⟨le_length _ _, .inr (.inr (.inr rfl))⟩
theorem FieldSize.operandMem (u : BitVec 3) (s : BitVec 4) (i b : Code) (d : BitVec 32) : FieldSize.Statement (.operandMem u s i b d) :=
  fun _ => ⟨le_length _ _, .inr (.inr (.inr rfl))⟩

end Sys2Proof.Laws
end

