-- ==== Sys2Proof/Tests/Slice0.lean ====
section
/-! SUPPORT. The model's own tests. Expected words, bytes and outcomes are those of spec/opcode_table.json and of
spec/95_test_vectors.md (its sections are named), or worked out by hand from the rule named; none is read off the model. At
the end, a witness for the hypotheses of every statement that has some. -/

namespace Sys2Proof.Tests

open Sys2Proof Sys2Proof.Machine

/-! ### WellFormed refuses (R73, R69, R150, R151) -/

theorem test_wf_unrealized_realised_tag : wellFormed (.fmtUnrealized 12) = false := by decide
theorem test_wf_unrealized_first_tag : wellFormed (.fmtUnrealized 13) = true := by decide
theorem test_wf_imm_too_wide : wellFormed (.imm 1 128) = false := by decide
theorem test_wf_imm_bad_width : wellFormed (.imm 3 1) = false := by decide
theorem test_wf_imm_zero_width : wellFormed (.imm 0 0) = false := by decide
theorem test_wf_imm_corner : wellFormed (.imm 1 0xFFFFFFFFFFFFFF80) = true := by decide

/-! ### Words written out from the encodings, one per row -/

theorem test_decode_tags :
    decode (.tag 0x0) = .ok .fmtNp ∧ decode (.tag 0x1) = .ok .fmtM ∧ decode (.tag 0x2) = .ok .fmtMi ∧
    decode (.tag 0x3) = .ok .fmtMr ∧ decode (.tag 0x4) = .ok .fmtRm ∧ decode (.tag 0x5) = .ok .fmtMri ∧
    decode (.tag 0x6) = .ok .fmtRmi ∧ decode (.tag 0x7) = .ok .fmtI ∧ decode (.tag 0x8) = .ok .fmtAi ∧
    decode (.tag 0x9) = .ok .fmtO ∧ decode (.tag 0xA) = .ok .fmtOi ∧ decode (.tag 0xB) = .ok .fmtAo ∧
    decode (.tag 0xC) = .ok .fmtD ∧ decode (.tag 0xD) = .ok (.fmtUnrealized 0xD) ∧
    decode (.tag 0xFF) = .ok (.fmtUnrealized 0xFF) := by decide

theorem test_decode_prefixes :
    decode (.field .addr32 [0b01100111]) = .ok .prefixAddr32 ∧ decode (.field .seg [0b00100110]) = .ok .prefixSegEs ∧
    decode (.field .seg [0b00101110]) = .ok .prefixSegCs ∧ decode (.field .seg [0b00110110]) = .ok .prefixSegSs ∧
    decode (.field .seg [0b00111110]) = .ok .prefixSegDs ∧ decode (.field .seg [0b01100100]) = .ok .prefixSegFs ∧
    decode (.field .seg [0b01100101]) = .ok .prefixSegGs ∧ decode (.field .mp [0b01100110]) = .ok .prefixMp66 ∧
    decode (.field .mp [0b11110010]) = .ok .prefixMpF2 ∧ decode (.field .mp [0b11110011]) = .ok .prefixMpF3 ∧
    decode (.field .rex [0b01001001]) = .ok (.rex true false false true) ∧
    decode (.field .rex [0b01000110]) = .ok (.rex false true true false) := by decide

theorem test_decode_opcode :
    decode (.field .esc [0b00001111]) = .ok .esc0F ∧ decode (.field .esc2 [0b00111000]) = .ok .esc38 ∧
    decode (.field .esc2 [0b00111010]) = .ok .esc3A ∧ decode (.field .opc1 [0b10001011]) = .ok (.opc1 0x8B) ∧
    decode (.field .opcReg [0b01010100]) = .ok (.opc1Reg 0b01010 0b100) ∧
    decode (.field .opc2 [0b11010000]) = .ok (.opc2 0xD0) := by decide

theorem test_decode_address :
    decode (.field .modrm [0b01000100]) = .ok (.modrm 0b01 0b000 0b100) ∧
    decode (.field .sib [0b10001000]) = .ok (.sib 0b10 0b001 0b000) ∧
    decode (.field .disp [0xF8]) = .ok (.disp8 0xF8) ∧
    decode (.field .disp [0x78, 0x56, 0x34, 0x12]) = .ok (.disp32 0x12345678) := by decide

theorem test_decode_immediates :
    decode (.field .imm [0x80]) = .ok (.imm 1 0xFFFFFFFFFFFFFF80) ∧ decode (.field .imm [0xFF, 0x7F]) = .ok (.imm 2 32767) ∧
    decode (.field .imm [0x00, 0x00, 0x00, 0x80]) = .ok (.imm 4 0xFFFFFFFF80000000) ∧
    decode (.field .imm [0x88, 0x77, 0x66, 0x55, 0x44, 0x33, 0x22, 0x11]) = .ok (.imm 8 0x1122334455667788) := by decide

/-- Section 3.1: R12 as 0x10C, and `Mem(RAX,4,RCX,8)` as 0x8410_1100_0000_0008. -/
theorem test_decode_descriptors :
    decode (.field .operand [0x0C, 0x01, 0, 0, 0, 0, 0, 0]) = .ok (.operandReg 0x10 12) ∧
    decode (.field .operand [0x08, 0, 0, 0, 0x00, 0x11, 0x10, 0x84]) = .ok (.operandMem 0 4 0x101 0x100 8) := by decide

theorem test_decode_refuses :
    decode (.field .seg [0x66]) = .error (.notThisField .seg 0x66) ∧
    decode (.field .mp [0xF0]) = .error (.notThisField .mp 0xF0) ∧
    decode (.field .rex [0x3F]) = .error (.notThisField .rex 0x3F) ∧
    decode (.field .esc2 [0x0F]) = .error (.notThisField .esc2 0x0F) ∧
    decode (.field .disp [1, 2]) = .error (.badLength .disp) ∧ decode (.field .imm [1, 2, 3]) = .error (.badLength .imm) ∧
    decode (.field .modrm []) = .error (.badLength .modrm) := by decide

theorem test_table_words :
    decodeTableWord 8 0x3 = some .fmtMr ∧ decodeTableWord 8 0xD = some (.fmtUnrealized 13) ∧
    decodeTableWord 8 0x67 = some .prefixAddr32 ∧ decodeTableWord 8 0x4B = some (.rex true false true true) ∧
    decodeTableWord 8 0x3A = some .esc3A ∧ decodeTableWord 32 0x12345678 = some (.disp32 0x12345678) ∧
    decodeTableWord 64 0x10C = some (.operandReg 0x10 12) ∧
    decodeTableWord 64 0x8410110000000008 = some (.operandMem 0 4 0x101 0x100 8) ∧ decodeTableWord 16 0 = none := by decide

/-! ### Fixtures -/

/-- A record of a format with one opcode byte; the fields the tests vary are set with `with`. -/
def fixture (fmt : BitVec 8) (opc1 : Byte) : Record := { Record.idle with fmt := fmt, opc1 := opc1 }

/-- A call of mnemonic 1. -/
def call (op0 op1 op2 : Desc) : Req := { Req.idle with mnem := 1, op0 := op0, op1 := op1, op2 := op2 }

/-- The caller at 0x1000 with one record and some inputs; `JMP_SENTINEL` is 2^64 - 1. -/
def world (r : Record) (inbox : List Input) : State :=
  { State.reset with
    cur := 0x1000, work := Work.idle 0x1000
    params := { table := [(1, r)], ripSentinel := 0x120, jmpSentinel := 0xFFFFFFFFFFFFFFFF }
    inbox := inbox }

/-- One request. -/
def enc (r : Record) (q : Req) : State := world r [.request q]

/-- The working registers loaded for a request, for one row. -/
def loaded (r : Record) (q : Req) : State := (world r []).load q r

/-- The outcome is a success with exactly these bytes at 0x1000. -/
def emits (o : Result) (bs : List Byte) : Bool :=
  match o with
  | .next t =>
    t.ok && decide (t.cur = 0x1000 + BitVec.ofNat 64 bs.length) &&
      (List.range bs.length).all fun k => t.buf.read (0x1000 + k) == bs[k]?
  | _ => false

/-- The outcome is a failure with the cursor where it was. -/
def fails (o : Result) : Bool :=
  match o with
  | .next t => !t.ok && decide (t.cur = 0x1000)
  | _ => false

/-- The bytes staged after a row. -/
def staged (o : Result) : Option (List Byte) :=
  match o with
  | .next t => some t.work.staged
  | _ => none

def rax : Desc := 0x100
def rcx : Desc := 0x101
def r8 : Desc := 0x108
def r12 : Desc := 0x10C
def ah : Desc := 0x204

/-! ### Formats: one step each, vectors of sections 2, 3.5, 3.6 and 3.7 -/

theorem test_np_xgetbv : emits (step (enc { fixture 0 0x01 with esc := .e0F, opc2 := some 0xD0 } (call 0 0 0)))
    [0x0F, 0x01, 0xD0] = true := by decide
theorem test_np_prefixes : emits (step (enc (fixture 0 0xC3) { call 0 0 0 with addr32 := true, seg := .gs }))
    [0x67, 0x65, 0xC3] = true := by decide
theorem test_m_r13 : emits (step (enc { fixture 1 0xFF with regc := some 0 } (call (memOperand 0x10D 0 0 0) 0 0)))
    [0x41, 0xFF, 0x45, 0x00] = true := by decide
theorem test_m_no_constant : fails (step (enc (fixture 1 0xF7) (call rax 0 0))) = true := by decide
theorem test_mi_corner : emits (step (enc { fixture 2 0x83 with regc := some 0, immsz := 1 } (call rcx (-128) 0)))
    [0x83, 0xC1, 0x80] = true := by decide
theorem test_mi_too_wide : fails (step (enc { fixture 2 0x83 with regc := some 0, immsz := 1 } (call rcx 128 0))) = true := by
  decide
theorem test_mr_sil : emits (step (enc { fixture 3 0x88 with mask8 := 3 } (call 0x106 rax 0))) [0x40, 0x88, 0xC6] = true := by
  decide
theorem test_mr_rex_high : fails (step (enc { fixture 3 0x88 with mask8 := 3 } (call r8 ah 0))) = true := by decide
theorem test_rm_rsp_base : emits (step (enc (fixture 4 0x8B) (call rax (memOperand 0x104 0 0 16) 0)))
    [0x8B, 0x44, 0x24, 0x10] = true := by decide
theorem test_rm_index_r12 : fails (step (enc (fixture 4 0x8B) (call rax (memOperand 0x100 1 0x10C 0) 0))) = true := by decide
theorem test_rm_every_bit :
    emits (step (enc (fixture 4 0x8B) (call 0x10F (memOperand 0x10C 8 0x10F 0xFFFFFFFF) 0))) [0x47, 0x8B, 0x7C, 0xFC, 0xFF] =
      true := by decide
theorem test_rm_no_base : emits (step (enc (fixture 4 0x8B) (call rax (memOperand 0 8 0x101 0) 0)))
    [0x8B, 0x04, 0xCD, 0x00, 0x00, 0x00, 0x00] = true := by decide
theorem test_mri_shld : emits (step (enc { fixture 5 0xA4 with esc := .e0F, immsz := 1 } (call rax rcx 3)))
    [0x0F, 0xA4, 0xC8, 0x03] = true := by decide
theorem test_rmi_imul : emits (step (enc { fixture 6 0x69 with immsz := 4 } (call r8 (memOperand 0x104 0 0 8) (-1))))
    [0x44, 0x69, 0x44, 0x24, 0x08, 0xFF, 0xFF, 0xFF, 0xFF] = true := by decide
theorem test_i_ret : emits (step (enc { fixture 7 0xC2 with immsz := 2 } (call 32767 0 0))) [0xC2, 0xFF, 0x7F] = true := by decide
theorem test_i_zero_width : fails (step (enc (fixture 7 0x68) (call 1 0 0))) = true := by decide
theorem test_ai_add : emits (step (enc { fixture 8 0x05 with immsz := 4 } (call 0 0x100 0))) [0x05, 0x00, 0x01, 0x00, 0x00] = true := by
  decide
theorem test_o_push : emits (step (enc (fixture 9 0x50) (call r12 0 0))) [0x41, 0x54] = true := by decide
theorem test_o_memory : fails (step (enc (fixture 9 0x50) (call (memOperand 0x100 0 0 0) 0 0))) = true := by decide
theorem test_oi_mov : emits (step (enc { fixture 10 0xB8 with immsz := 4 } (call r8 1 0)))
    [0x41, 0xB8, 0x01, 0x00, 0x00, 0x00] = true := by decide
theorem test_ao_xchg : emits (step (enc (fixture 11 0x90) (call rax 0x109 0))) [0x41, 0x91] = true := by decide
theorem test_d_backward : emits (step (enc { fixture 12 0xE9 with immsz := 4 } (call 0x1000 0 0)))
    [0xE9, 0xFB, 0xFF, 0xFF, 0xFF] = true := by decide
theorem test_d_sentinel : emits (step (enc { fixture 12 0xEB with immsz := 1 } (call 0xFFFFFFFFFFFFFFFF 0 0))) [0xEB, 0x00] = true := by
  decide
theorem test_unrealized : fails (step (enc (fixture 13 0) (call 0 0 0))) = true := by decide
theorem test_unknown_mnemonic : fails (step (enc (fixture 0 0xC3) (Req.idle))) = true := by decide

/-! ### Emitted fields and descriptors: one row each -/

theorem test_prefix_addr32 : staged (exec .prefixAddr32 (loaded (fixture 0 0) { call 0 0 0 with addr32 := true })) =
    some [0x67] := by decide
theorem test_prefix_seg : (staged (exec .prefixSegEs (loaded (fixture 0 0) { call 0 0 0 with seg := .es })) = some [0x26]) ∧
    (staged (exec .prefixSegCs (loaded (fixture 0 0) { call 0 0 0 with seg := .cs })) = some [0x2E]) ∧
    (staged (exec .prefixSegSs (loaded (fixture 0 0) { call 0 0 0 with seg := .ss })) = some [0x36]) ∧
    (staged (exec .prefixSegDs (loaded (fixture 0 0) { call 0 0 0 with seg := .ds })) = some [0x3E]) ∧
    (staged (exec .prefixSegFs (loaded (fixture 0 0) { call 0 0 0 with seg := .fs })) = some [0x64]) ∧
    (staged (exec .prefixSegGs (loaded (fixture 0 0) { call 0 0 0 with seg := .gs })) = some [0x65]) ∧
    (staged (exec .prefixSegGs (loaded (fixture 0 0) { call 0 0 0 with seg := .fs })) = some []) := by decide
theorem test_prefix_mp : (staged (exec .prefixMp66 (loaded { fixture 0 0 with mp := .p66 } (call 0 0 0))) = some [0x66]) ∧
    (staged (exec .prefixMpF2 (loaded { fixture 0 0 with mp := .pF2 } (call 0 0 0))) = some [0xF2]) ∧
    (staged (exec .prefixMpF3 (loaded { fixture 0 0 with mp := .pF3 } (call 0 0 0))) = some [0xF3]) ∧
    (staged (exec .prefixMpF3 (loaded { fixture 0 0 with mp := .pF2 } (call 0 0 0))) = some []) := by decide
/-- Section 3.2: W and B give 49; nothing set gives no byte; `rex_req` alone gives 40. -/
theorem test_rex : (staged (exec (.rex true false false true) (loaded (fixture 0 0) (call 0 0 0))) = some [0x49]) ∧
    (staged (exec (.rex false false false false) (loaded (fixture 0 0) (call 0 0 0))) = some []) ∧
    (staged (exec (.rex false false false false) (loaded { fixture 0 0 with mask8 := 1 } (call 0x106 0 0))) = some [0x40]) := by
  decide
theorem test_escapes : (staged (exec .esc0F (loaded { fixture 0 0 with esc := .e0F38 } (call 0 0 0))) = some [0x0F]) ∧
    (staged (exec .esc38 (loaded { fixture 0 0 with esc := .e0F38 } (call 0 0 0))) = some [0x38]) ∧
    (staged (exec .esc3A (loaded { fixture 0 0 with esc := .e0F38 } (call 0 0 0))) = some []) ∧
    (staged (exec .esc3A (loaded { fixture 0 0 with esc := .e0F3A } (call 0 0 0))) = some [0x3A]) := by decide
theorem test_opcodes : (staged (exec (.opc1 0x8B) (loaded (fixture 0 0) (call 0 0 0))) = some [0x8B]) ∧
    (staged (exec (.opc2 0xD0) (loaded { fixture 0 0 with opc2 := some 0xD0 } (call 0 0 0))) = some [0xD0]) ∧
    (staged (exec (.opc2 0xD0) (loaded (fixture 0 0) (call 0 0 0))) = some []) ∧
    (staged (exec (.opc1Reg 0b01010 0b100) (loaded (fixture 9 0x50) (call r12 0 0))) = some [0x54]) ∧
    (staged (exec (.opc1Reg 0b01010 0b100) (loaded (fixture 4 0x50) (call r12 0 0))) = some []) := by decide

/-- A transaction through the probe: `Mem(RSP,0,-,16)` looked at, then ModRM 44, SIB 24 and displacement 10 (section 2.11). -/
theorem test_probe_address :
    (match runSteps 5 (world (fixture 4 0x8B) [.probeOpen (call rax (memOperand 0x104 0 0 16) 0),
        .probeField .operand [0x10, 0, 0, 0, 0x04, 0x01, 0x00, 0x80], .probeField .modrm [0x44], .probeField .sib [0x24],
        .probeField .disp [0x10]]) with
      | .next t => decide (t.work.staged = [0x44, 0x24, 0x10] ∧ t.work.view = .mem 0x104 .gplBase 0 0 16)
      | _ => false) = true := by decide
/-- The IP base forces four bytes though `mod` is 0 (R202). -/
theorem test_probe_forced_disp32 :
    (match runSteps 4 (world (fixture 4 0x8B) [.probeOpen (call rax (memOperand 0x120 0 0 16) 0),
        .probeField .operand [0x10, 0, 0, 0, 0x20, 0x01, 0x00, 0x80], .probeField .modrm [0x05],
        .probeField .disp [0x10, 0, 0, 0]]) with
      | .next t => decide (t.work.staged = [0x05, 0x10, 0, 0, 0])
      | _ => false) = true := by decide
theorem test_imm_row : (staged (exec (.imm 2 32767) (loaded (fixture 7 0xC2) (call 0 0 0))) = some [0xFF, 0x7F]) ∧
    (staged (exec (.imm 2 32767) (loaded (fixture 0 0xC2) (call 0 0 0))) = some []) := by decide
theorem test_operand_reg :
    (match exec (.operandReg 0x10 6) (loaded (fixture 0 0) (call 0 0 0)) with
      | .next t => decide (t.work.view = .reg 6 true false true)
      | _ => false) = true := by decide

/-! ### Placed words run as the first instruction after reset -/

theorem test_fetch_tag :
    (match step (State.reset.withFetchWord 8 0x0) with
      | .next t => t.ok && decide (t.cur = 1)
      | _ => false) = true := by decide
theorem test_fetch_field :
    (match step (State.reset.withFetchWord 8 0x67) with
      | .next t => decide (t.work.staged = [] ∧ t.inbox = [])
      | _ => false) = true := by decide

/-! ### Witnesses: the hypotheses of each statement met together, each clause at a boundary -/

theorem witness_EncodedRowDecodesToItself :
    WellFormed (.imm 1 0xFFFFFFFFFFFFFF80) ∧ WellFormed (.fmtUnrealized 13) ∧ WellFormed .fmtD := by decide

theorem witness_DecodedWordEncodesBack :
    decode (.field .imm [0x80]) = .ok (.imm 1 0xFFFFFFFFFFFFFF80) ∧ decode (.tag 12) = .ok .fmtD := by decide

theorem witness_BaseCodeClassification :
    (∃ p : Params, p.wf) ∧ codeIsGpl 0x100 = true ∧ codeIsGpl 0x10F = true ∧
    (∃ rip c : Code, c ≠ 0 ∧ c = rip) ∧ (∃ rip c : Code, c ≠ 0 ∧ c ≠ rip ∧ codeIsGpl c = true) ∧
    (∃ rip c : Code, c ≠ 0 ∧ c ≠ rip ∧ codeIsGpl c = false) :=
  ⟨⟨State.reset.params, by decide⟩, by decide, by decide, ⟨0x120, 0x120, by decide⟩, ⟨0x120, 0x10F, by decide⟩,
    ⟨0x120, 0x110, by decide⟩⟩

theorem witness_FieldsAreLittleEndian :
    (3 < (le 0x12345678 4).length) ∧ (LegalWidth 1 ∧ fits 0xFFFFFFFFFFFFFF80 1 = true) ∧
    (LegalWidth 8 ∧ fits 0x8000000000000000 8 = true) := by decide

/-- Asked for and not asked for, for the first and the last row of the statement. -/
theorem witness_PrefixRowsFollowTheRequest :
    (loaded (fixture 0 0) { call 0 0 0 with addr32 := true }).work.req.addr32 = true ∧
    (loaded (fixture 0 0) (call 0 0 0)).work.req.addr32 ≠ true ∧
    (loaded (fixture 0 0) { call 0 0 0 with seg := .gs }).work.req.seg = .gs ∧
    (loaded (fixture 0 0) (call 0 0 0)).work.req.seg ≠ .gs := by decide

theorem witness_SelectorRowsFollowTheRecord :
    (loaded { fixture 0 0 with mp := .pF3 } (call 0 0 0)).work.record.mp = .pF3 ∧
    (loaded (fixture 0 0) (call 0 0 0)).work.record.mp ≠ .pF3 ∧
    (loaded { fixture 0 0 with esc := .e0F3A } (call 0 0 0)).work.record.esc = .e0F3A ∧
    (loaded (fixture 0 0) (call 0 0 0)).work.record.esc ≠ .e0F3A := by decide

theorem witness_RexRowStandsWithAnyFlag :
    (loaded { fixture 0 0 with mask8 := 1 } (call 0x107 0 0)).work.flags.rexReq = true ∧
    AnyRex ⟨false, false, false, false, true⟩ ∧ ¬ AnyRex ⟨false, false, false, false, false⟩ := by decide

/-- The first and last formats with a register in the opcode, and their neighbours. -/
theorem witness_OpcodeByteRows :
    (9 ≤ (fixture 9 0).fmt.toNat ∧ (fixture 11 0).fmt.toNat ≤ 11 ∧ (fixture 9 0).opc2 = none) ∧
    ¬ (9 ≤ (fixture 8 0).fmt.toNat) ∧ ¬ ((fixture 12 0).fmt.toNat ≤ 11) := by decide

theorem witness_ModrmAndSibRows :
    (1 ≤ (fixture 1 0).fmt.toNat ∧ (fixture 6 0).fmt.toNat ≤ 6) ∧ ¬ (1 ≤ (fixture 0 0).fmt.toNat) ∧
    (∃ (m : BitVec 2) (g : BitVec 3), m ≠ 3 ∧ some (0x44 : Byte) = some (m ++ g ++ (4 : BitVec 3) : BitVec 8)) ∧
    ¬ (∃ (m : BitVec 2) (g : BitVec 3), m ≠ 3 ∧ some (0xC4 : Byte) = some (m ++ g ++ (4 : BitVec 3) : BitVec 8)) := by decide

theorem witness_DisplacementRowsFollowMod :
    (∃ b k i sc x, ((world (fixture 4 0) []).latchView (.mem 0 .noBase 0 0 0)).work.view = .mem b k i sc x ∧
      (k = .noBase ∨ k = .ripRel)) ∧
    ¬ (∃ b k i sc x, (world (fixture 4 0) []).work.view = .mem b k i sc x ∧ (k = .noBase ∨ k = .ripRel)) ∧
    ((world (fixture 4 0) []).latchModrm 0x44).work.modrm = some ((1 : BitVec 2) ++ (0 : BitVec 3) ++ (4 : BitVec 3) : BitVec 8) ∧
    (world (fixture 4 0) []).work.modrm = none :=
  ⟨⟨0, .noBase, 0, 0, 0, rfl, .inl rfl⟩, (fun ⟨_, _, _, _, _, h, _⟩ => nomatch h), rfl, rfl⟩

theorem witness_ImmediateRowChecksAndStages :
    (loaded (fixture 12 0) (call 0 0 0)).work.record.fmt.toNat ∈ [2, 5, 6, 7, 8, 10, 12] ∧ ImmLegal 127 1 ∧
    ¬ ImmLegal 128 1 ∧ ¬ ImmLegal 0 0 ∧
    (loaded (fixture 11 0) (call 0 0 0)).work.record.fmt.toNat ∉ [2, 5, 6, 7, 8, 10, 12] := by decide

/-- A legal memory destination at the corners: R13 as base, R15 as index, scale 8. -/
theorem legal_corner : AddressLegal 0x120 (memOperand 0x10D 8 0x10F 0) := fun _ => by unfold MemoryLegal; decide

/-- `NoClash` as a computation. -/
theorem noClash_of {f : Flags} {ops : List Desc}
    (h : (!(f.rexReq || f.w || f.r || f.x || f.b) ||
      ops.all fun op => !(decide (0x204 ≤ op.toNat) && decide (op.toNat ≤ 0x207))) = true) : NoClash f ops := by
  intro ha op hop hb
  simp only [Bool.or_eq_true, Bool.not_eq_true', List.all_eq_true] at h
  rcases h with h | h
  · rcases ha with ha | ha | ha | ha | ha <;> simp [ha] at h
  · have := h op hop
    simp [hb.1, hb.2] at this

theorem witness_FormatsMAndMiEmitConstantForm :
    let s := loaded { fixture 2 0x83 with regc := some 5, immsz := 1 } (call (memOperand 0x10D 8 0x10F 0) (-128) 0)
    s.work.record.regc = some 5 ∧ s.job.SoloLegal s.work.req.op0 ∧ ImmLegal s.work.req.op1 s.work.record.immsz :=
  ⟨rfl, ⟨legal_corner, noClash_of (by decide)⟩, by decide⟩

/-- MR with the memory operand in `op0` and BH beside a plain base; RM with it in `op1`. -/
theorem witness_FormatsMrAndRmEmitPairForm :
    (let s := loaded (fixture 3 0x89) (call (memOperand 0x10D 8 0x10F 0) rcx 0);
      s.job.PairLegal s.work.req.op0 s.work.req.op1) ∧
    (let s := loaded (fixture 4 0x8B) (call 0x10F (memOperand 0x10D 8 0x10F 0) 0);
      s.job.PairLegal s.work.req.op1 s.work.req.op0) ∧
    (let s := loaded (fixture 3 0x88) (call rax 0x207 0);
      s.job.PairLegal s.work.req.op0 s.work.req.op1) :=
  ⟨⟨by decide, legal_corner, noClash_of (by decide)⟩, ⟨by decide, legal_corner, noClash_of (by decide)⟩,
    ⟨by decide, fun h => absurd h (by decide), noClash_of (by decide)⟩⟩

theorem witness_FormatsMriAndRmiEmitPairThenImmediate :
    (let s := loaded { fixture 5 0xA4 with immsz := 1 } (call (memOperand 0x10D 8 0x10F 0) rcx 127);
      ImmLegal s.work.req.op2 s.work.record.immsz ∧ s.job.PairLegal s.work.req.op0 s.work.req.op1) ∧
    (let s := loaded { fixture 6 0x69 with immsz := 8 } (call rcx (memOperand 0x10D 8 0x10F 0) 0x8000000000000000);
      ImmLegal s.work.req.op2 s.work.record.immsz ∧ s.job.PairLegal s.work.req.op1 s.work.req.op0) :=
  ⟨⟨by decide, by decide, legal_corner, noClash_of (by decide)⟩, by decide, by decide, legal_corner,
    noClash_of (by decide)⟩

theorem witness_FormatsIAndAiEmitOpcodeThenImmediate :
    (let s := loaded { fixture 7 0xC2 with immsz := 2 } (call 32767 0 0);
      ImmLegal s.work.req.op0 s.work.record.immsz) ∧
    (let s := loaded { fixture 8 0x05 with immsz := 4 } (call 0 0xFFFFFFFF80000000 0);
      ImmLegal s.work.req.op1 s.work.record.immsz) := by decide

theorem witness_FormatsOAoOiFoldRegister :
    (let s := loaded (fixture 9 0x50) (call 0x207 0 0);
      s.job.RegLegal s.work.req.op0) ∧
    (let s := loaded (fixture 11 0x90) (call rax 0x10F 0);
      s.job.RegLegal s.work.req.op1) ∧
    (let s := loaded { fixture 10 0xB0 with immsz := 1 } (call ah (-1) 0);
      s.job.RegLegal s.work.req.op0 ∧ ImmLegal s.work.req.op1 s.work.record.immsz) :=
  ⟨⟨by decide, noClash_of (by decide)⟩, ⟨by decide, noClash_of (by decide)⟩,
    ⟨by decide, noClash_of (by decide)⟩, by decide⟩

/-- The farthest target of a one-byte displacement: `end + 127`, with `end` 0x1002. -/
theorem witness_FormatDEmitsRelativeDisplacement :
    let s := loaded { fixture 12 0xEB with immsz := 1 } (call 0x1081 0 0)
    ImmLegal s.job.rel s.work.record.immsz := by decide

/-- The failing clauses: no constant, an index that aliases "no index", a high byte beside REX.W, a register operand that is a
memory descriptor, and an immediate one past its range. -/
theorem witness_FormatsFailWhatTheyCannotEncode :
    (loaded (fixture 1 0) (call rax 0 0)).work.record.regc = none ∧
    ¬ (loaded { fixture 2 0 with regc := some 0 } (call (memOperand 0x100 1 0x104 0) 0 0)).job.SoloLegal
      (memOperand 0x100 1 0x104 0) ∧
    ¬ (loaded { fixture 3 0 with w := true } (call rax ah 0)).job.PairLegal rax ah ∧
    ¬ (loaded { fixture 5 0 with immsz := 1 } (call rax (memOperand 0x100 0 0 0) 0)).job.PairLegal rax (memOperand 0x100 0 0 0) ∧
    ¬ (loaded { fixture 9 0 with w := true } (call ah 0 0)).job.RegLegal ah ∧
    ¬ ImmLegal 128 1 := by
  refine ⟨rfl, fun h => ?_, fun h => ?_, fun h => absurd h.1 (by decide), fun h => ?_, by decide⟩
  · have := (h.1 (by decide)).1 (by decide)
    exact absurd this.2.2.1 (by decide)
  · exact absurd (⟨by decide, by decide⟩ : HighByte ah) (h.2.2 (.inr (.inl (by decide))) ah (by simp))
  · exact absurd (⟨by decide, by decide⟩ : HighByte ah) (h.2 (.inr (.inl (by decide))) ah (by simp))

theorem witness_FormatsTouchOnlyTheirRegion :
    (∃ t, exec .fmtNp (loaded (fixture 0 0xC3) (call 0 0 0)) = .next t ∧ t.ok = true) ∧
    (∃ t, exec (.fmtUnrealized 13) (loaded (fixture 13 0) (call 0 0 0)) = .next t ∧ t.ok = false) ∧
    Outside 0x1016 0x1000 22 ∧ Outside 0xFFF 0x1000 22 :=
  ⟨⟨_, rfl, rfl⟩, ⟨_, rfl, rfl⟩, by unfold Outside; decide, by unfold Outside; decide⟩

theorem witness_MissingConstantsKindsAndWideImmediatesFail :
    (loaded (fixture 1 0) (call rax 0 0)).work.record.regc = none ∧
    (let s := loaded (fixture 3 0) (call (memOperand 0x100 0 0 0) (memOperand 0x100 0 0 0) 0);
      isMem s.work.req.op1 = true ∧ isMem s.work.req.op0 = true) ∧
    (let s := loaded { fixture 7 0 with immsz := 1 } (call 128 128 128);
      ¬ ImmLegal s.work.req.op0 s.work.record.immsz ∧ ¬ ImmLegal s.work.req.op1 s.work.record.immsz ∧
        ¬ ImmLegal s.work.req.op2 s.work.record.immsz) ∧
    (let s := loaded { fixture 12 0xEB with immsz := 1 } (call 0x1082 0 0);
      ¬ ImmLegal s.job.rel s.work.record.immsz) := by decide

/-- Requests that differ only in a slot the format does not consume. -/
theorem witness_UnconsumedSlotsAreNotRead :
    let s := loaded (fixture 8 0x05) (call rax 1 0)
    let q := { call rcx 1 0 with op3 := 7 }
    q.addr32 = s.work.req.addr32 ∧ q.seg = s.work.req.seg ∧ q.op1 = s.work.req.op1 ∧ q.op0 ≠ s.work.req.op0 := by decide

theorem witness_UnconsumedSlotsAreNotRead_rest :
    let s := loaded (fixture 5 0xA4) (call rax rcx 3)
    let q := { call rax rcx 3 with op3 := 7 }
    q.op0 = s.work.req.op0 ∧ q.op1 = s.work.req.op1 ∧ q.op2 = s.work.req.op2 ∧ q ≠ s.work.req := by decide

/-- Every fixture's caller is admitted. -/
theorem world_admitted (r : Record) (inbox : List Input) : (world r inbox).Admitted :=
  ⟨by show (0x1000 : Addr).toNat + 22 < 2 ^ 64; decide, fun k hk =>
    ⟨⟨⟨0, 2 ^ 64⟩, List.mem_singleton.2 rfl, Nat.zero_le _, by
      show (0x1000 : Addr).toNat + k < 0 + 2 ^ 64
      have : (0x1000 : Addr).toNat = 4096 := rfl
      omega⟩, (fun _ h => nomatch h), (fun _ h => nomatch h)⟩⟩

/-- The clauses for a realised tag and for the first unrealized one. -/
theorem witness_RequestRunsItsFormat :
    (world (fixture 13 0) [.request (call 0 0 0)]).Admitted ∧
    tableRecord (enc (fixture 13 0) (call 0 0 0)).params.table 1 = some (fixture 13 0) ∧
    decode (.tag (fixture 13 0).fmt) = .ok (.fmtUnrealized 13) ∧ 13 ≤ (fixture 13 0).fmt.toNat ∧
    decode (.tag (fixture 12 0).fmt) = .ok .fmtD :=
  ⟨world_admitted _ _, by decide, by decide, by decide, by decide⟩

theorem witness_ProbeRunsItsRow :
    (world (fixture 0 0) [.probeField .addr32 [0x67]]).Admitted ∧ decode (.field .addr32 [0x67]) = .ok .prefixAddr32 ∧
    decode (.field .addr32 [0x66]) = .error (.notThisField .addr32 0x66) :=
  ⟨world_admitted _ _, by decide, by decide⟩

theorem witness_UnknownMnemonicFails :
    (enc (fixture 0 0) Req.idle).Admitted ∧ tableRecord (enc (fixture 0 0) Req.idle).params.table Req.idle.mnem = none :=
  ⟨world_admitted _ _, by decide⟩

/-- The last cursor that is admitted, and the first that is not. -/
theorem witness_CapacityDecidesAdmission :
    step { enc (fixture 0 0xC3) (call 0 0 0) with cur := 0xFFFFFFFFFFFFFFE9 } ≠ .fault .notAdmitted ∧
    step { enc (fixture 0 0xC3) (call 0 0 0) with cur := 0xFFFFFFFFFFFFFFEA } = .fault .notAdmitted :=
  ⟨(fun h => nomatch h), rfl⟩

/-- Another agent's last byte is the region's first; the inputs' first byte is the region's last; and one past it. -/
theorem witness_SharedRegionsAreRefused :
    (let s := enc (fixture 0 0xC3) (call 0 0 0);
      step { s with env := { s.env with busy := [⟨0xFFF, 2⟩] } } = .refused .regionShared) ∧
    (let s := enc (fixture 0 0xC3) (call 0 0 0);
      step { s with env := { s.env with inputs := [⟨0x1015, 1⟩] } } = .refused .inputsInRegion) ∧
    (let s := enc (fixture 0 0xC3) (call 0 0 0);
      emits (step { s with env := { s.env with inputs := [⟨0x1016, 1⟩] } }) [0xC3] = true) :=
  ⟨rfl, rfl, by decide⟩

theorem witness_AdmittedRequestsAlwaysAnswer : (enc (fixture 1 0) (call ah 0 0)).Admitted := world_admitted _ _

/-- The two ends of the mandatory-REX range, and their neighbours. -/
theorem witness_TransactionStartValues :
    (world { fixture 3 0 with mask8 := 3 } [.probeOpen (call 0x104 0x107 0)]).Admitted ∧
    tableRecord (world (fixture 3 0) [.probeOpen (call 0 0 0)]).params.table 1 = some (fixture 3 0) ∧
    (loaded { fixture 3 0 with mask8 := 1 } (call 0x104 0 0)).work.flags.rexReq = true ∧
    (loaded { fixture 3 0 with mask8 := 2 } (call 0x104 0x107 0)).work.flags.rexReq = true ∧
    (loaded { fixture 3 0 with mask8 := 3 } (call 0x103 0x108 0)).work.flags.rexReq = false :=
  ⟨world_admitted _ _, by decide, by decide, by decide, by decide⟩

/-- A legal job and an illegal one. -/
theorem witness_RequestCommitsLayoutOrFails :
    (enc { fixture 7 0xC2 with immsz := 2 } (call 32767 0 0)).Admitted ∧
    ((enc { fixture 7 0xC2 with immsz := 2 } (call 0 0 0)).jobOf (call 32767 0 0) { fixture 7 0xC2 with immsz := 2 }).Legal ∧
    ¬ ((enc { fixture 7 0xC2 with immsz := 2 } (call 0 0 0)).jobOf (call 32768 0 0) { fixture 7 0xC2 with immsz := 2 }).Legal :=
  ⟨world_admitted _ _, show ImmLegal 32767 2 by decide, show ¬ ImmLegal 32768 2 by decide⟩

theorem witness_SuccessWritesExactlyTheBytes :
    ∃ t, step (enc (fixture 0 0xC3) (call 0 0 0)) = .next t ∧ t.ok = true := ⟨_, rfl, rfl⟩

theorem witness_FailureRestoresCursorAndFreesRegion :
    ∃ t, step (enc (fixture 13 0) (call 0 0 0)) = .next t ∧ t.ok = false := ⟨_, rfl, rfl⟩

/-- R75's largest instruction: every optional field present and an 8-byte immediate after a ModRM. -/
def longest : Record :=
  { fixture 2 0 with mp := .p66, esc := .e0F38, w := true, opc2 := some 0, regc := some 0, immsz := 8 }

/-- A format without ModRM (1 byte), one with SIB and disp8 (5 bytes: REX, opcode, ModRM, SIB, displacement), and the longest
(22 bytes), each from 0x1000. -/
theorem witness_LengthFollowsTheFormula :
    (∃ t, step (enc (fixture 0 0xC3) (call 0 0 0)) = .next t ∧ t.ok = true ∧ t.cur = 0x1001) ∧
    (∃ t, step (enc (fixture 4 0x8B) (call rax (memOperand 0x10D 8 0x10F 0) 0)) = .next t ∧ t.ok = true ∧ t.cur = 0x1005) ∧
    (∃ t, step (enc longest { call (memOperand 0x100 1 0x101 0x1000) 0 0 with addr32 := true, seg := .fs }) = .next t ∧
      t.ok = true ∧ t.cur = 0x1016) :=
  ⟨⟨_, rfl, rfl, rfl⟩, ⟨_, rfl, rfl, rfl⟩, _, rfl, rfl, rfl⟩

theorem witness_ReservedCodesKeepTheirMeaning :
    isMem (memOperand 0x120 0 0 0) = true ∧ resolve 0x120 (memOperand 0x120 0 0 0) = .ok ⟨0, 5, 0, 0, 4, true⟩ ∧
    resolve 0x120 (memOperand 0 0 0 0) = .ok ⟨0, 4, 5, 0, 4, true⟩ ∧
    resolve 0x120 (memOperand 0x104 0 0 0) = .ok ⟨0, 4, 4, 0, 4, false⟩ := by decide

/-- Displacements 0, 127 and 128, and 0 at a base of code 5. -/
theorem witness_DisplacementSizingOfBases :
    isMem (memOperand 0x100 0 0 127) = true ∧ baseKind 0x120 (memBase (memOperand 0x100 0 0 127)) = .gplBase ∧
    resolve 0x120 (memOperand 0x100 0 0 0) = .ok ⟨0, 0, 0, 0, 4, false⟩ ∧
    resolve 0x120 (memOperand 0x100 0 0 127) = .ok ⟨1, 0, 0, 0, 4, false⟩ ∧
    resolve 0x120 (memOperand 0x100 0 0 128) = .ok ⟨2, 0, 0, 0, 4, false⟩ ∧
    resolve 0x120 (memOperand 0x105 0 0 0) = .ok ⟨1, 5, 0, 0, 4, false⟩ := by decide

/-- A high byte that is encoded: beside a register (MR), alone (M) and in the opcode (O). -/
theorem witness_HighBytesNeverMeetRex :
    HighByte ah ∧ HighByte 0x207 ∧
    (∃ t, exec .fmtMr (loaded (fixture 3 0x88) (call rax ah 0)) = .next t ∧ t.ok = true) ∧
    (∃ t, exec .fmtM (loaded { fixture 1 0xFF with regc := some 1 } (call ah 0 0)) = .next t ∧ t.ok = true) ∧
    (∃ t, exec .fmtO (loaded (fixture 9 0x50) (call 0x207 0 0)) = .next t ∧ t.ok = true) :=
  ⟨by decide, by decide, ⟨_, rfl, rfl⟩, ⟨_, rfl, rfl⟩, ⟨_, rfl, rfl⟩⟩

theorem witness_RelativeTargetIsReached :
    let s := loaded { fixture 12 0xEB with immsz := 1 } (call 0x1081 0 0)
    (∃ t, exec .fmtD s = .next t ∧ t.ok = true) ∧ s.work.req.op0 ≠ s.params.jmpSentinel :=
  ⟨⟨_, rfl, rfl⟩, by decide⟩

theorem witness_SentinelEncodesZero :
    let s := loaded { fixture 12 0xEB with immsz := 1 } (call 0xFFFFFFFFFFFFFFFF 0 0)
    s.work.req.op0 = s.params.jmpSentinel ∧ LegalWidth s.work.record.immsz := by decide

/-- Two descriptors of one code, of different classes, in MR and in RM: they commit the same bytes, and only the code can be
read back. -/
theorem witness_RegisterPairsAreRecovered :
    ∀ i : Instr, i = .fmtMr ∨ i = .fmtRm →
      let s := loaded (fixture 3 0x89) (call r8 rcx 0)
      let s' := loaded (fixture 3 0x89) (call 0x308 rcx 0)
      isReg s.work.req.op0 = true ∧ isReg s.work.req.op1 = true ∧ isReg s'.work.req.op0 = true ∧
      isReg s'.work.req.op1 = true ∧ s.work.record = s'.work.record ∧ s.work.req.addr32 = s'.work.req.addr32 ∧
      s.work.req.seg = s'.work.req.seg ∧ s.work.flags.r = false ∧ s.work.flags.b = false ∧ s'.work.flags.r = false ∧
      s'.work.flags.b = false ∧
      ∃ t t', exec i s = .next t ∧ t.ok = true ∧ exec i s' = .next t' ∧ t'.ok = true ∧
        t.cur - s.work.cur0 = 3 ∧ t'.cur - s'.work.cur0 = 3 ∧
        ∀ k < 3, t.buf.read (s.work.cur0 + BitVec.ofNat 64 k).toNat = t'.buf.read (s'.work.cur0 + BitVec.ofNat 64 k).toNat := by
  rintro i (rfl | rfl) <;>
    exact ⟨by decide, by decide, by decide, by decide, rfl, rfl, rfl, rfl, rfl, rfl, rfl,
      _, _, rfl, rfl, rfl, rfl, rfl, rfl, by decide⟩

theorem witness_EveryStepKeepsTheInvariant :
    (enc (fixture 0 0xC3) (call 0 0 0)).Inv ∧ ∃ t, step (enc (fixture 0 0xC3) (call 0 0 0)) = .next t :=
  ⟨⟨by decide, by decide, by decide⟩, _, rfl⟩

theorem witness_ConfigurationIsNeverWritten :
    ∃ t, step (enc (fixture 0 0xC3) (call 0 0 0)) = .next t := ⟨_, rfl⟩

theorem witness_NothingCarriesOver : (enc (fixture 0 0) (call 0 0 0)).inbox = [.request (call 0 0 0)] := rfl

/-- A first request that fails, then one that succeeds. -/
theorem witness_FailuresAreForgotten :
    let s := world (fixture 0 0xC3) [.request Req.idle, .request (call 0 0 0)]
    ∃ t, step s = .next t ∧ t.ok = false ∧ ∃ u, step t = .next u ∧ u.ok = true :=
  ⟨_, rfl, rfl, _, rfl, rfl⟩

/-- Adjacent regions: 0x1000 and 0x1016. -/
theorem witness_DisjointTransactionsCommute :
    let s := world (fixture 0 0xC3) []
    Memory.wf s.buf = true ∧ (0x1000 : Addr).toNat + 22 ≤ (0x1016 : Addr).toNat ∧
    ∃ u, runSteps 2 { s with inbox := [.moveCursor 0x1000, .request (call 0 0 0)] } = .next u ∧ u.ok = true ∧
      ∃ u', runSteps 2 { u with inbox := [.moveCursor 0x1016, .request (call 0 0 0)] } = .next u' ∧ u'.ok = true :=
  ⟨by decide, by decide, _, rfl, rfl, _, rfl, rfl⟩

theorem witness_InputsAreTakenInOrder :
    (∃ t, step (world (fixture 0 0) [.reset, .moveCursor 1]) = .next t) ∧ (∃ t, step (world (fixture 0 0) []) = .next t) ∧
    ∃ t, step (world (fixture 0 0) [.setEnv ⟨[], [], []⟩]) = .next t ∧ t.env = ⟨[], [], []⟩ :=
  ⟨⟨_, rfl⟩, ⟨_, rfl⟩, _, rfl, rfl⟩

theorem witness_CallerInputsTouchOnlyTheirOwn :
    (world (fixture 0 0) [.moveCursor 0xFFFFFFFFFFFFFFFF]).inbox = [.moveCursor 0xFFFFFFFFFFFFFFFF] ∧
    (world (fixture 0 0) [.storeByte 0xFFFFFFFFFFFFFFFF 1]).inbox = [.storeByte 0xFFFFFFFFFFFFFFFF 1] ∧
    (world (fixture 0 0) [.setEnv ⟨[], [], []⟩]).inbox = [.setEnv ⟨[], [], []⟩] ∧
    (world (fixture 0 0) [.reset]).inbox = [.reset] := ⟨rfl, rfl, rfl, rfl⟩

end Sys2Proof.Tests
end

/-! PROOFS. Little-endian fields (R10, R44): sign extension reads only the bytes the field holds. -/

namespace Sys2Proof.Machine

/-- Sign extension from `w` bytes sees only the low `w` bytes, which are the ones the field holds. -/
theorem sextBytes_leValue_le (v : BitVec 64) (w : Nat) : sextBytes (leValue (le v w)) w = sextBytes v w := by
  have low : (leValue (le v w)).setWidth (8 * w) = v.setWidth (8 * w) := by
    apply BitVec.eq_of_getLsbD_eq
    intro i hi
    rw [BitVec.getLsbD_setWidth, BitVec.getLsbD_setWidth]
    by_cases h64 : i < 64
    · simp [leValue_le v w i h64, hi]
    · rw [BitVec.getLsbD_of_ge _ i (by omega), BitVec.getLsbD_of_ge v i (by omega)]
  rw [sextBytes, low, sextBytes]

@[simp] theorem sextBytes_eight (v : BitVec 64) : sextBytes v 8 = v := by
  simp [sextBytes]

/-- The fit check of R150 is survival of the sign extension, at width 8 too, where it is not computed. -/
theorem fits_iff_sextBytes_eq (v : BitVec 64) (w : Nat) : fits v w = true ↔ sextBytes v w = v := by
  by_cases hw : w = 8
  · subst hw; simp [fits]
  · simp [fits, hw]

/-- Settles O8: the bytes are the emitter's law; the value is the sign extension of the field's bytes, which a value that
fits survives. -/
theorem fieldsAreLittleEndian : Obligations.FieldsAreLittleEndian := by
  refine ⟨le_getElem, le_length, fun v w _ hfit => ?_⟩
  calc sextBytes (leValue (le v w)) w
    _ = sextBytes v w := sextBytes_leValue_le v w
    _ = v := (fits_iff_sextBytes_eq v w).1 hfit

end Sys2Proof.Machine

/-! PROOFS. State and steps (R21, R34, R310): what every step keeps, what each input of the caller changes, and the working
registers a transaction starts with. -/

namespace Sys2Proof.Machine

/-- A step with an input at the head of the queue is that input, run with the rest of the queue left. -/
theorem step_of_inbox {s : State} {i : Input} {rest : List Input} (h : s.inbox = i :: rest) :
    step s = runInput i (s.take rest) := by
  unfold step runNext
  rw [h]

/-! ### The configuration -/

/-- No row writes the configuration (R21). -/
theorem RowEffect.params_eq {s t : State} (h : RowEffect s t) : t.params = s.params := by
  cases h with
  | staged bs => exact State.stage_params s bs
  | modrm b => exact (State.latchModrm_params (s.stage [b]) b).trans (State.stage_params s [b])
  | viewed v => exact State.latchView_params s v
  | committed bs _ => exact State.commit_params s bs
  | failed => exact State.fail_params s

/-- Settles O48: no caller's input and no start of a transaction writes the configuration, and neither does a row. -/
theorem configurationIsNeverWritten : Obligations.ConfigurationIsNeverWritten := by
  intro s t h
  rcases step_cases h with ⟨-, rfl⟩ | ⟨i, rest, -, hi⟩
  · rfl
  rcases hi with ⟨a, -, rfl⟩ | ⟨a, b, -, rfl⟩ | ⟨e, -, rfl⟩ | ⟨-, rfl⟩ | ⟨q, -, -, -, rfl⟩ | ⟨q, r, -, -, -, hx⟩ |
    ⟨q, r, -, -, -, rfl⟩ | ⟨slot, bytes, j, -, -, -, hx⟩
  · exact State.moveCursor_params (s.take rest) a
  · exact State.storeByte_params (s.take rest) a b
  · exact State.setEnv_params (s.take rest) e
  · exact State.quiesce_params (s.take rest)
  · exact State.fail_params (s.take rest).quiesce
  · exact (exec_effect hx).params_eq
  · exact State.load_params (s.take rest) q r
  · exact (exec_effect hx).params_eq

/-! ### The invariant

One rule per operation on the state; where the captured cursor is used, the operation has just set it or the invariant says
it is the cursor. -/

namespace State.Inv

variable {s : State}

theorem take (h : s.Inv) (rest : List Input) : (s.take rest).Inv := h

theorem moveCursor (h : s.Inv) (a : Addr) : (s.moveCursor a).Inv :=
  let ⟨hbuf, _, hparams⟩ := h
  ⟨hbuf, rfl, hparams⟩

theorem storeByte (h : s.Inv) (a : Addr) (b : Byte) : (s.storeByte a b).Inv :=
  let ⟨hbuf, hcur, hparams⟩ := h
  ⟨Memory.wf_write s.buf b a.isLt hbuf, hcur, hparams⟩

theorem setEnv (h : s.Inv) (e : Env) : (s.setEnv e).Inv := h

theorem quiesce (h : s.Inv) : s.quiesce.Inv :=
  let ⟨hbuf, _, hparams⟩ := h
  ⟨hbuf, rfl, hparams⟩

theorem load (h : s.Inv) (q : Req) (r : Record) : (s.load q r).Inv :=
  let ⟨hbuf, _, hparams⟩ := h
  ⟨hbuf, rfl, hparams⟩

theorem commit (h : s.Inv) (bs : List Byte) : (s.commit bs).Inv :=
  let ⟨hbuf, _, hparams⟩ := h
  ⟨writeBytes_wf s.buf s.work.cur0 bs hbuf, rfl, hparams⟩

theorem fail (h : s.Inv) : s.fail.Inv :=
  let ⟨hbuf, _, hparams⟩ := h
  ⟨State.fail_buf s ▸ writeBytes_wf s.buf s.work.cur0 (freeBytes s.draws) hbuf, rfl, hparams⟩

/-- Every row keeps the invariant: staging and looking change neither the buffer nor a cursor. -/
theorem rowEffect {t : State} (h : s.Inv) (e : RowEffect s t) : t.Inv := by
  cases e with
  | staged bs => exact h
  | modrm b => exact h
  | viewed v => exact h
  | committed bs _ => exact h.commit bs
  | failed => exact h.fail

end State.Inv

/-- Settles O45: one rule per operation, over what a step can do. -/
theorem everyStepKeepsTheInvariant : Obligations.EveryStepKeepsTheInvariant := by
  intro s t hs h
  rcases step_cases h with ⟨-, rfl⟩ | ⟨i, rest, -, hi⟩
  · exact hs
  have hs := hs.take rest
  rcases hi with ⟨a, -, rfl⟩ | ⟨a, b, -, rfl⟩ | ⟨e, -, rfl⟩ | ⟨-, rfl⟩ | ⟨q, -, -, -, rfl⟩ | ⟨q, r, -, -, -, hx⟩ |
    ⟨q, r, -, -, -, rfl⟩ | ⟨slot, bytes, j, -, -, -, hx⟩
  · exact hs.moveCursor a
  · exact hs.storeByte a b
  · exact hs.setEnv e
  · exact hs.quiesce
  · exact hs.quiesce.fail
  · exact (hs.load q r).rowEffect (exec_effect hx)
  · exact hs.load q r
  · exact hs.rowEffect (exec_effect hx)

/-! ### Reset -/

/-- Settles O46: the empty buffer is canonical, both cursors are 0, and the sentinel 0x120 is neither 0 nor a register code. -/
theorem resetMeetsTheInvariant : Obligations.ResetMeetsTheInvariant :=
  have hbuf : Memory.wf State.reset.buf = true := rfl
  have hparams : State.reset.params.wf := by decide
  ⟨hbuf, Work.idle_cur0 0, hparams⟩

/-- Settles O47: the queue is empty, so the step waits. -/
theorem resetStateWaits : Obligations.ResetStateWaits :=
  ⟨rfl, rfl, rfl⟩

/-! ### The caller's inputs -/

/-- Settles O53: each input is one operation on the state, whose fields say what it changes; a stored byte is read back by
the laws of the buffer. -/
theorem callerInputsTouchOnlyTheirOwn : Obligations.CallerInputsTouchOnlyTheirOwn := by
  intro s rest a b e
  refine ⟨fun h => ?move, fun h => ?store, fun h => ?surroundings, fun h => ?reset⟩
  case move => exact ⟨(s.take rest).moveCursor a, step_of_inbox h, rfl, fun _ => rfl, rfl⟩
  case store =>
    exact ⟨(s.take rest).storeByte a b, step_of_inbox h, rfl, Memory.read_write_same s.buf a.toNat b,
      fun x hx => Memory.read_write_other s.buf b hx, rfl⟩
  case surroundings => exact ⟨(s.take rest).setEnv e, step_of_inbox h, rfl, rfl, fun _ => rfl, rfl⟩
  case reset => exact ⟨(s.take rest).quiesce, step_of_inbox h, rfl, rfl, fun _ => rfl, rfl, rfl, rfl⟩

/-! ### The start of a transaction -/

/-- One slot of the mandatory-REX rule, as a range (R110, R234). -/
theorem forcesRex_iff (flagged : Bool) (op : Desc) :
    forcesRex flagged op = true ↔ flagged = true ∧ 0x104 ≤ op.toNat ∧ op.toNat ≤ 0x107 := by
  rw [forcesRex, Bool.and_eq_true, isRex8Gpl_iff]

/-- The mandatory-REX rule sets `rex_req` exactly for a slot that forces it (R234, R235). -/
theorem mandatoryRex_initial_rexReq_iff (mask : BitVec 4) (q : Req) (w : Bool) :
    (mandatoryRex mask q (Flags.initial w)).rexReq = true ↔
      forcesRex (mask.getLsbD 0) q.op0 = true ∨ forcesRex (mask.getLsbD 1) q.op1 = true ∨
        forcesRex (mask.getLsbD 2) q.op2 = true ∨ forcesRex (mask.getLsbD 3) q.op3 = true := by
  simp only [mandatoryRex, Flags.initial, Bool.or_eq_true, Bool.false_eq_true, false_or, or_assoc]

/-- An admitted probe of a known mnemonic loads the working registers and stops there. -/
theorem step_probeOpen {s : State} {q : Req} {rest : List Input} {record : Record} (h : s.inbox = .probeOpen q :: rest)
    (ha : s.Admitted) (hr : tableRecord s.params.table q.mnem = some record) :
    step s = .next ((s.take rest).load q record) :=
  calc step s
    _ = openTransaction q (s.take rest) fun _ t => .next t := step_of_inbox h
    _ = .next ((s.take rest).load q record) :=
      openTransaction_some _ ((passes_iff s).2 ha) ((lookup_eq s.params q.mnem).trans hr)

/-- Settles O34: the probe shows the loaded state, whose fields are the start values. -/
theorem transactionStartValues : Obligations.TransactionStartValues := by
  intro s q rest record h ha hr
  refine ⟨(s.take rest).load q record, step_probeOpen h ha hr, rfl, rfl, rfl, rfl, rfl, rfl, rfl, rfl, rfl, rfl, ?_,
    rfl, fun _ => rfl, rfl, rfl, rfl⟩
  simp only [State.load_work, Work.start_flags, mandatoryRex_initial_rexReq_iff, forcesRex_iff]

end Sys2Proof.Machine

/-! PROOFS. Memory and transactions (R42, R43, R47, R51, R52, R316): which requests are admitted, the two outcomes of a
format and of a whole request, and the bytes each outcome writes. -/

namespace Sys2Proof.Machine

/-! ### Rows leave the queue and the surroundings alone -/

/-- No row takes an input (R51). -/
theorem RowEffect.inbox_eq {s t : State} (h : RowEffect s t) : t.inbox = s.inbox := by
  cases h with
  | staged bs => exact State.stage_inbox s bs
  | modrm b => exact (State.latchModrm_inbox (s.stage [b]) b).trans (State.stage_inbox s [b])
  | viewed v => exact State.latchView_inbox s v
  | committed bs _ => exact State.commit_inbox s bs
  | failed => exact State.fail_inbox s

/-- No row changes the surroundings (R47, R52, R316). -/
theorem RowEffect.env_eq {s t : State} (h : RowEffect s t) : t.env = s.env := by
  cases h with
  | staged bs => exact State.stage_env s bs
  | modrm b => exact (State.latchModrm_env (s.stage [b]) b).trans (State.stage_env s [b])
  | viewed v => exact State.latchView_env s v
  | committed bs _ => exact State.commit_env s bs
  | failed => exact State.fail_env s

/-- Settles O52: every input is taken from the head of the queue before it runs; only `setEnv` writes the surroundings. -/
theorem inputsAreTakenInOrder : Obligations.InputsAreTakenInOrder := by
  intro s t h
  rcases step_cases h with ⟨hnil, rfl⟩ | ⟨i, rest, hcons, hi⟩
  · exact ⟨by rw [hnil, List.tail_nil], fun _ => rfl, .inl rfl⟩
  suffices t.inbox = rest ∧ (t.env = s.env ∨ ∃ e, i = .setEnv e ∧ t.env = e) by
    obtain ⟨hinbox, henv⟩ := this
    rw [hcons]
    refine ⟨hinbox, nofun, henv.imp_right ?_⟩
    rintro ⟨e, rfl, he⟩
    exact ⟨e, rest, rfl, he⟩
  rcases hi with ⟨a, -, rfl⟩ | ⟨a, b, -, rfl⟩ | ⟨e, rfl, rfl⟩ | ⟨-, rfl⟩ | ⟨q, -, -, -, rfl⟩ | ⟨q, r, -, -, -, hx⟩ |
    ⟨q, r, -, -, -, rfl⟩ | ⟨slot, bytes, j, -, -, -, hx⟩
  · exact ⟨rfl, .inl rfl⟩
  · exact ⟨rfl, .inl rfl⟩
  · exact ⟨rfl, .inr ⟨e, rfl, rfl⟩⟩
  · exact ⟨rfl, .inl rfl⟩
  · exact ⟨State.fail_inbox (s.take rest).quiesce, .inl (State.fail_env (s.take rest).quiesce)⟩
  · exact ⟨(exec_effect hx).inbox_eq, .inl (exec_effect hx).env_eq⟩
  · exact ⟨rfl, .inl rfl⟩
  · exact ⟨(exec_effect hx).inbox_eq, .inl (exec_effect hx).env_eq⟩

/-! ### Admission -/

section
variable {s : State} {q : Req} {rest : List Input} (hq : s.inbox = .request q :: rest)
include hq

/-- A request that passes admission answers a next state (R281, R282). -/
theorem step_request_next (hp : Passes s.env s.cur) : ∃ t, step s = .next t := by
  rw [show step s = openTransaction q (s.take rest) runTag from step_of_inbox hq]
  cases hl : lookup s.params q.mnem with
  | none => exact ⟨_, openTransaction_none (s := s.take rest) runTag hp hl⟩
  | some r =>
    obtain ⟨t, ht⟩ := exec_next (decodeTag r.fmt) ((s.take rest).load q r)
    exact ⟨t, (openTransaction_some (s := s.take rest) runTag hp hl).trans ht⟩

/-- What the step of a request answers: the name of the first test it does not pass, in the order of log 11, or a next state
(R47, R52, R316). -/
theorem step_request_admission :
    (capacityOk s.env s.cur = false ∧ step s = .fault .notAdmitted) ∨
    (capacityOk s.env s.cur = true ∧ shared s.env s.cur = true ∧ step s = .refused .regionShared) ∨
    (capacityOk s.env s.cur = true ∧ shared s.env s.cur = false ∧ inputsInside s.env s.cur = true ∧
      step s = .refused .inputsInRegion) ∨
    (Passes s.env s.cur ∧ ∃ t, step s = .next t) := by
  have hstep : step s = openTransaction q (s.take rest) runTag := step_of_inbox hq
  cases hc : capacityOk s.env s.cur with
  | false => exact .inl ⟨rfl, by simp [hstep, openTransaction, whenAdmitted, hc]⟩
  | true =>
    cases hb : shared s.env s.cur with
    | true => exact .inr (.inl ⟨rfl, rfl, by simp [hstep, openTransaction, whenAdmitted, hc, hb]⟩)
    | false =>
      cases hi : inputsInside s.env s.cur with
      | true => exact .inr (.inr (.inl ⟨rfl, rfl, rfl, by simp [hstep, openTransaction, whenAdmitted, hc, hb, hi]⟩))
      | false => exact .inr (.inr (.inr ⟨⟨hc, hb, hi⟩, step_request_next hq ⟨hc, hb, hi⟩⟩))

end

/-- Settles O31: capacity is the first test, and no other answer is a fault. -/
theorem capacityDecidesAdmission : Obligations.CapacityDecidesAdmission := by
  intro s q rest hq
  rw [← capacityOk_iff]
  rcases step_request_admission hq with ⟨hc, hs⟩ | ⟨hc, -, hs⟩ | ⟨hc, -, -, hs⟩ | ⟨⟨hc, -, -⟩, t, hs⟩
  all_goals rw [hs, hc]; simp

/-- Settles O32: with its capacity, a request is refused by the second or the third test, and answers when it passes both. -/
theorem sharedRegionsAreRefused : Obligations.SharedRegionsAreRefused := by
  intro s q rest hq hfault
  rw [← shared_iff, ← inputsInside_iff]
  rcases step_request_admission hq with ⟨-, hs⟩ | ⟨-, hb, hs⟩ | ⟨-, hb, hi, hs⟩ | ⟨⟨-, hb, hi⟩, t, hs⟩
  · exact absurd hs hfault
  · rw [hs, hb]; simp
  · rw [hs, hb, hi]; simp
  · rw [hs, hb, hi]; simp

/-! ### The frame of the formats -/

/-- The thirteen realized formats are the rows of the tags 0 to 12 (R73). -/
theorem realizedFormat_eq_decodeTag {i : Instr}
    (hi : i ∈ [Instr.fmtNp, .fmtM, .fmtMi, .fmtMr, .fmtRm, .fmtMri, .fmtRmi, .fmtI, .fmtAi, .fmtO, .fmtOi, .fmtAo, .fmtD]) :
    ∃ tag : Byte, i = decodeTag tag := by
  have htags : [Instr.fmtNp, .fmtM, .fmtMi, .fmtMr, .fmtRm, .fmtMri, .fmtRmi, .fmtI, .fmtAi, .fmtO, .fmtOi, .fmtAo, .fmtD] =
      (List.range 13).map fun n => decodeTag (BitVec.ofNat 8 n) := rfl
  rw [htags] at hi
  obtain ⟨n, -, rfl⟩ := List.mem_map.1 hi
  exact ⟨_, rfl⟩

/-- Settles O25: every format ends in a commit of 1 to 22 bytes or in the failure outcome, whose frames are laws. -/
theorem formatsTouchOnlyTheirRegion : Obligations.FormatsTouchOnlyTheirRegion := by
  intro s t i hi h
  have hend : (∃ bs : List Byte, 1 ≤ bs.length ∧ bs.length ≤ 22 ∧ t = s.commit bs) ∨ t = s.fail := by
    rcases hi with hi | ⟨tag, rfl⟩
    · obtain ⟨tag, rfl⟩ := realizedFormat_eq_decodeTag hi
      exact exec_decodeTag_cases h
    · exact .inr (Host.Outcome.next.inj h).symm
  rcases hend with ⟨bs, hpos, hmax, rfl⟩ | rfl
  · exact ⟨fun _ => ⟨bs.length, hpos, hmax, rfl, fun a => commit_read_outside⟩, nofun, rfl, rfl, rfl, rfl⟩
  · exact ⟨nofun, fun _ => ⟨rfl, fun a => fail_read_outside⟩, rfl, rfl, rfl, rfl⟩

/-! ### The two outcomes of a format -/

/-- A body that succeeds exactly under `P`, and then gives with the prefixes the bytes `S`. -/
structure Emits (s : State) (body : Except EncodeError (List Byte)) (P : Prop) (S : List Byte) : Prop where
  ok_iff : (∃ bs, body = .ok bs) ↔ P
  bytes : ∀ bs, body = .ok bs → prefixBytes s.work.req ++ bs = S

namespace Emits

variable (s : State)

theorem opc : Emits s (.ok (opcEmit s.work.record s.work.flags)) True (s.job.head s.work.flags) where
  ok_iff := iff_true_intro ⟨_, rfl⟩
  bytes _ h := Except.ok.inj h ▸ opcEmit_bytes s

theorem pair (dst r : Desc) : Emits s (emitModrm s dst (.regOp r)) (s.job.PairLegal dst r) (s.job.pair dst r) where
  ok_iff := emitModrm_regOp_ok
  bytes _ := emitModrm_regOp_bytes

theorem regop (r : Desc) : Emits s (regopEmit s.work.record s.work.flags r) (s.job.RegLegal r) (s.job.regHead r) where
  ok_iff := regopEmit_ok
  bytes _ := regopEmit_bytes

theorem const (dst : Desc) :
    Emits s (emitConst s dst) (s.work.record.regc ≠ none ∧ s.job.SoloLegal dst)
      (s.job.solo dst (s.work.record.regc.getD 0)) := by
  unfold emitConst
  cases s.work.record.regc with
  | none => exact ⟨by simp, nofun⟩
  | some k => exact ⟨by simpa using emitModrm_const_ok, fun _ => emitModrm_const_bytes⟩

theorem unrealized : Emits s (.error .unrealizedFormat) False [] where
  ok_iff := by simp
  bytes := nofun

variable {s} {body : Except EncodeError (List Byte)} {P : Prop} {S : List Byte}

/-- An immediate after a body adds its own condition and its own bytes (R151, R253). -/
theorem imm (h : Emits s body P S) (v : BitVec 64) (w : Nat) :
    Emits s (thenImm body v w) (P ∧ ImmLegal v w) (S ++ le v w) where
  ok_iff := by
    constructor
    · rintro ⟨bs, hbs⟩
      obtain ⟨hd, hhd, hw, hf, -⟩ := (thenImm_ok_iff ..).1 hbs
      exact ⟨h.ok_iff.1 ⟨hd, hhd⟩, hw, (fits_iff v w hw).1 hf⟩
    · rintro ⟨hP, hw, hr⟩
      obtain ⟨hd, hhd⟩ := h.ok_iff.2 hP
      exact ⟨_, (thenImm_ok_iff ..).2 ⟨hd, hhd, hw, (fits_iff v w hw).2 hr, rfl⟩⟩
  bytes bs hbs := by
    obtain ⟨hd, hhd, -, -, rfl⟩ := (thenImm_ok_iff ..).1 hbs
    rw [← List.append_assoc, h.bytes hd hhd]

theorem congr {Q : Prop} (h : Emits s body P S) (hPQ : P ↔ Q) : Emits s body Q S := ⟨h.ok_iff.trans hPQ, h.bytes⟩

theorem opcImm (s : State) (v : BitVec 64) (w : Nat) :
    Emits s (thenImm (.ok (opcEmit s.work.record s.work.flags)) v w) (ImmLegal v w)
      (s.job.head s.work.flags ++ le v w) :=
  ((opc s).imm v w).congr (Iff.of_eq (true_and _))

theorem rel (s : State) :
    Emits s (relBody s) (ImmLegal s.job.rel s.work.record.immsz)
      (s.job.head s.work.flags ++ le s.job.rel s.work.record.immsz) := by
  rw [relBody, relDisp_eq]
  exact opcImm s s.job.rel s.work.record.immsz

/-- Where `P` holds the transaction commits `S`. -/
theorem commit (h : Emits s body P S) (hP : P) : runBody s body = .next (s.commit S) :=
  let ⟨bs, hbs⟩ := h.ok_iff.2 hP
  runBody_ok hbs (h.bytes bs hbs)

/-- Elsewhere it fails. -/
theorem fail (h : Emits s body P S) (hP : ¬ P) : runBody s body = .next s.fail :=
  runBody_fail fun bs hbs => hP (h.ok_iff.1 ⟨bs, hbs⟩)

end Emits

/-- Every format runs a body around the prefixes that succeeds exactly when the transaction's job is legal, and then gives
the job's bytes (R236 to R253, R281). -/
theorem exec_format_emits (s : State) :
    ∃ body, exec (decodeTag s.work.record.fmt) s = runBody s body ∧ Emits s body s.job.Legal s.job.bytes := by
  change ∃ body, exec (decodeTag s.job.record.fmt) s = runBody s body ∧ Emits s body s.job.Legal s.job.bytes
  unfold decodeTag Job.Legal Job.bytes
  generalize s.job.record.fmt.toNat = n
  match n with
  | 0 => exact ⟨_, rfl, .opc s⟩
  | 1 => exact ⟨_, rfl, .const s _⟩
  | 2 => exact ⟨_, rfl, ((Emits.const s _).imm _ _).congr and_assoc⟩
  | 3 => exact ⟨_, rfl, .pair s _ _⟩
  | 4 => exact ⟨_, rfl, .pair s _ _⟩
  | 5 => exact ⟨_, rfl, (Emits.pair s _ _).imm _ _⟩
  | 6 => exact ⟨_, rfl, (Emits.pair s _ _).imm _ _⟩
  | 7 => exact ⟨_, rfl, .opcImm s _ _⟩
  | 8 => exact ⟨_, rfl, .opcImm s _ _⟩
  | 9 => exact ⟨_, rfl, .regop s _⟩
  | 10 => exact ⟨_, rfl, (Emits.regop s _).imm _ _⟩
  | 11 => exact ⟨_, rfl, .regop s _⟩
  | 12 => exact ⟨_, rfl, .rel s⟩
  | _ + 13 => exact ⟨_, rfl, .unrealized s⟩

/-- A legal job commits its bytes (R253). -/
theorem exec_format_of_legal {s : State} (h : s.job.Legal) :
    exec (decodeTag s.work.record.fmt) s = .next (s.commit s.job.bytes) :=
  let ⟨_, hexec, hemits⟩ := exec_format_emits s
  hexec.trans (hemits.commit h)

/-- A job that is not legal fails (R281). -/
theorem exec_format_of_not_legal {s : State} (h : ¬ s.job.Legal) :
    exec (decodeTag s.work.record.fmt) s = .next s.fail :=
  let ⟨_, hexec, hemits⟩ := exec_format_emits s
  hexec.trans (hemits.fail h)

/-! ### The length of a legal job (R75) -/

theorem Job.head_length_le (j : Job) (f : Flags) : (j.head f).length ≤ 8 :=
  j.head_length f ▸ lengthFormula_le j.req j.record f

theorem Job.regHead_length_le (j : Job) (r : Desc) : (j.regHead r).length ≤ 8 :=
  j.regHead_length r ▸ lengthFormula_le j.req j.record (opcFlags j.flags r)

/-- ModRM, SIB and displacement take at most 6 bytes (R68). -/
theorem layoutAddress_length_le (rip : Code) (r : BitVec 3) (op : Desc) : (layoutAddress rip r op).length ≤ 6 := by
  obtain ⟨md, g, rm, tail, -, hlen⟩ := layoutAddress_length rip r op
  rw [hlen]
  repeat' split
  all_goals omega

theorem Job.solo_length_le (j : Job) (dst : Desc) (k : BitVec 3) : (j.solo dst k).length ≤ 14 := by
  have hhead := j.head_length_le (soloFlags j.rip j.flags dst)
  have haddress := layoutAddress_length_le j.rip k dst
  rw [Job.solo, List.length_append]
  omega

theorem Job.pair_length_le (j : Job) (dst r : Desc) : (j.pair dst r).length ≤ 14 := by
  have hhead := j.head_length_le (pairFlags j.rip j.flags dst r)
  have haddress := layoutAddress_length_le j.rip (r.setWidth 3) dst
  rw [Job.pair, List.length_append]
  omega

/-- A legal immediate adds at most 8 bytes (R151). -/
theorem append_imm_length_le {S : List Byte} {v : BitVec 64} {w n : Nat} (hS : S.length ≤ n) (hi : ImmLegal v w) :
    (S ++ le v w).length ≤ n + 8 := by
  rw [List.length_append, le_length]
  rcases hi.1 with rfl | rfl | rfl | rfl <;> omega

/-- A legal job's bytes fit the region a transaction may touch (R75). -/
theorem Job.bytes_length_le {j : Job} (h : j.Legal) : j.bytes.length ≤ 22 := by
  unfold Job.Legal at h
  unfold Job.bytes
  generalize j.record.fmt.toNat = n at h
  match n, h with
  | 0, _ => exact (j.head_length_le _).trans (by decide)
  | 1, _ => exact (j.solo_length_le _ _).trans (by decide)
  | 2, h => exact append_imm_length_le (j.solo_length_le _ _) h.2.2
  | 3, _ => exact (j.pair_length_le _ _).trans (by decide)
  | 4, _ => exact (j.pair_length_le _ _).trans (by decide)
  | 5, h => exact append_imm_length_le (j.pair_length_le _ _) h.2
  | 6, h => exact append_imm_length_le (j.pair_length_le _ _) h.2
  | 7, h => exact (append_imm_length_le (j.head_length_le _) h).trans (by decide)
  | 8, h => exact (append_imm_length_le (j.head_length_le _) h).trans (by decide)
  | 9, _ => exact (j.regHead_length_le _).trans (by decide)
  | 10, h => exact (append_imm_length_le (j.regHead_length_le _) h.2).trans (by decide)
  | 11, _ => exact (j.regHead_length_le _).trans (by decide)
  | 12, h => exact (append_imm_length_le (j.head_length_le _) h).trans (by decide)

/-! ### The two outcomes of a request -/

/-- The request `q` at the cursor is admitted, its mnemonic has the record `r`, and the job it gives is legal. -/
def State.Commits (s : State) (q : Req) (r : Record) : Prop :=
  Passes s.env s.cur ∧ lookup s.params q.mnem = some r ∧ (s.jobOf q r).Legal

theorem State.Commits.no_wrap {s : State} {q : Req} {r : Record} (h : s.Commits q r) : s.cur.toNat + 22 < 2 ^ 64 :=
  let ⟨hpasses, _, _⟩ := h
  ((passes_iff s).1 hpasses).1

theorem State.Commits.bytes_length_le {s : State} {q : Req} {r : Record} (h : s.Commits q r) :
    (s.jobOf q r).bytes.length ≤ 22 :=
  let ⟨_, _, hlegal⟩ := h
  Job.bytes_length_le hlegal

section
variable {s t : State} {q : Req} {rest : List Input} (hq : s.inbox = .request q :: rest)
include hq

/-- What the step of a request can do: fail on an unknown mnemonic, or run its record's format with the registers loaded. -/
theorem step_request_cases (h : step s = .next t) :
    Passes s.env s.cur ∧ ((lookup s.params q.mnem = none ∧ t = (s.take rest).quiesce.fail) ∨
      ∃ r, lookup s.params q.mnem = some r ∧ exec (decodeTag r.fmt) ((s.take rest).load q r) = .next t) :=
  openTransaction_next (s := s.take rest) (k := runTag) ((step_of_inbox hq).symm.trans h)

/-- A request that commits writes the bytes of its job (R42). -/
theorem step_request_of_commits {r : Record} (h : s.Commits q r) :
    step s = .next (((s.take rest).load q r).commit (s.jobOf q r).bytes) := by
  obtain ⟨hp, hl, hlegal⟩ := h
  calc step s
    _ = openTransaction q (s.take rest) runTag := step_of_inbox hq
    _ = exec (decodeTag r.fmt) ((s.take rest).load q r) := openTransaction_some (s := s.take rest) runTag hp hl
    _ = _ := exec_format_of_legal (s := (s.take rest).load q r) hlegal

/-- A request whose response says success has committed the bytes of its job. -/
theorem step_request_success (h : step s = .next t) (hok : t.ok = true) :
    ∃ r, s.Commits q r ∧ t = ((s.take rest).load q r).commit (s.jobOf q r).bytes := by
  obtain ⟨hp, ⟨-, rfl⟩ | ⟨r, hl, hexec⟩⟩ := step_request_cases hq h
  · cases hok
  refine ⟨r, ?_⟩
  by_cases hlegal : (s.jobOf q r).Legal
  · have hcommits : s.Commits q r := ⟨hp, hl, hlegal⟩
    exact ⟨hcommits, Host.Outcome.next.inj (h.symm.trans (step_request_of_commits hq hcommits))⟩
  · have hfail := exec_format_of_not_legal (s := (s.take rest).load q r) hlegal
    obtain rfl := Host.Outcome.next.inj (hexec.symm.trans hfail)
    cases hok

/-- A request whose response says failure has taken the failure outcome, from registers that captured the cursor. -/
theorem step_request_failure (h : step s = .next t) (hok : t.ok = false) :
    ∃ u : State, t = u.fail ∧ u.work.cur0 = s.cur ∧ u.buf = s.buf ∧ s.draws ≤ u.draws := by
  obtain ⟨-, ⟨-, rfl⟩ | ⟨r, -, hexec⟩⟩ := step_request_cases hq h
  · exact ⟨(s.take rest).quiesce, rfl, rfl, rfl, Nat.le_refl _⟩
  · rcases exec_decodeTag_cases hexec with ⟨bs, -, -, rfl⟩ | rfl
    · cases hok
    · exact ⟨(s.take rest).load q r, rfl, rfl, rfl, Nat.le_succ _⟩

/-- A request that answers has a region that does not wrap (R47). -/
theorem step_request_no_wrap (h : step s = .next t) : s.cur.toNat + 22 < 2 ^ 64 :=
  let ⟨hpasses, _⟩ := step_request_cases hq h
  ((passes_iff s).1 hpasses).1

end

/-- Settles O36: a success is a commit of the job's bytes, at addresses that do not wrap. -/
theorem successWritesExactlyTheBytes : Obligations.SuccessWritesExactlyTheBytes := by
  intro s t q rest hq h hok
  have hwrap := step_request_no_wrap hq h
  obtain ⟨r, ⟨-, hl, hlegal⟩, rfl⟩ := step_request_success hq h hok
  have hlen := Job.bytes_length_le hlegal
  refine ⟨r, _, (lookup_eq s.params q.mnem).symm.trans hl, rfl, hlen, rfl, fun k hk => ?_,
    fun a => commit_read_outside (s := (s.take rest).load q r)⟩
  rw [← addr_toNat (c := s.cur) (k := k) (by omega)]
  exact commit_read_inside (s := (s.take rest).load q r) hk hlen

/-- Settles O37: a failure puts the draws from its counter on at the captured cursor, which is the cursor. -/
theorem failureRestoresCursorAndFreesRegion : Obligations.FailureRestoresCursorAndFreesRegion := by
  intro s t q rest hq h hok
  have hwrap := step_request_no_wrap hq h
  obtain ⟨u, rfl, hcur, hbuf, hdraws⟩ := step_request_failure hq h hok
  rw [← hcur] at hwrap ⊢
  rw [← hbuf]
  refine ⟨rfl, ⟨u.draws, hdraws, Nat.le_refl _, fun k hk => ?_⟩, fun a => fail_read_outside⟩
  rw [← addr_toNat (c := u.work.cur0) (k := k) (by omega)]
  exact fail_read_inside hk

/-! ### Transactions on disjoint regions -/

/-- What a run leaves at an address depends on the memory before through that address alone. -/
theorem writeBytes_read_congr {m n : Memory} {a : Nat} (h : m.read a = n.read a) (c : Addr) (bs : List Byte) :
    (m.writeBytes c bs).read a = (n.writeBytes c bs).read a := by
  induction bs generalizing m n c with
  | nil => exact h
  | cons b bs ih => exact ih (by rw [Memory.read_write, Memory.read_write, h]) (c + 1)

/-- At an address outside one of two runs their order does not matter. -/
theorem writeBytes_read_comm (m : Memory) {c : Addr} {bs : List Byte} {a : Nat} (h : Outside a c bs.length) (d : Addr)
    (ds : List Byte) : ((m.writeBytes c bs).writeBytes d ds).read a = ((m.writeBytes d ds).writeBytes c bs).read a :=
  calc ((m.writeBytes c bs).writeBytes d ds).read a
    _ = (m.writeBytes d ds).read a := writeBytes_read_congr (writeBytes_read_outside m c bs a h) d ds
    _ = ((m.writeBytes d ds).writeBytes c bs).read a := (writeBytes_read_outside (m.writeBytes d ds) c bs a h).symm

/-- Runs that share no address commute, as lists. -/
theorem writeBytes_comm {m : Memory} {c d : Addr} {bs ds : List Byte} (hm : Memory.wf m = true)
    (h : ∀ a, Outside a c bs.length ∨ Outside a d ds.length) :
    (m.writeBytes c bs).writeBytes d ds = (m.writeBytes d ds).writeBytes c bs := by
  refine Memory.ext_read (writeBytes_wf _ _ _ (writeBytes_wf _ _ _ hm)) (writeBytes_wf _ _ _ (writeBytes_wf _ _ _ hm))
    fun a => ?_
  rcases h a with hc | hd
  · exact writeBytes_read_comm m hc d ds
  · exact (writeBytes_read_comm m hd c bs).symm

/-- Of two regions of 22 addresses that do not wrap and are 22 apart, no address is in both. -/
theorem outside_or_outside {c d : Addr} (hc : c.toNat + 22 < 2 ^ 64) (hd : d.toNat + 22 < 2 ^ 64)
    (hcd : c.toNat + 22 ≤ d.toNat ∨ d.toNat + 22 ≤ c.toNat) (a : Nat) : Outside a c 22 ∨ Outside a d 22 := by
  by_cases ha : c.toNat ≤ a ∧ a < c.toNat + 22
  · refine .inr fun k hk => ?_
    rw [addr_toNat (by omega)]
    omega
  · refine .inl fun k hk => ?_
    rw [addr_toNat (by omega)]
    omega

/-- The state in which a caller that has moved to `a` waits for the answer to `q`. -/
def State.requestAt (s : State) (a : Addr) (q : Req) : State := (s.take [.request q]).moveCursor a

/-- The state after that request has committed, when its mnemonic has the record `r`. -/
def State.committedAt (s : State) (a : Addr) (q : Req) (r : Record) : State :=
  (((s.requestAt a q).take []).load q r).commit ((s.requestAt a q).jobOf q r).bytes

section
variable (s : State) (a : Addr) (q : Req) (r : Record)

@[simp] theorem State.committedAt_params : (s.committedAt a q r).params = s.params := rfl
@[simp] theorem State.committedAt_env : (s.committedAt a q r).env = s.env := rfl
@[simp] theorem State.committedAt_buf :
    (s.committedAt a q r).buf = s.buf.writeBytes a ((s.requestAt a q).jobOf q r).bytes := rfl

/-- Moving and asking are two steps, of which the second is the request's. -/
theorem runSteps_move_request :
    runSteps 2 { s with inbox := [.moveCursor a, .request q] } = step (s.requestAt a q) := by
  have hmove : step { s with inbox := [.moveCursor a, .request q] } = .next (s.requestAt a q) :=
    step_of_inbox (i := .moveCursor a) (rest := [.request q]) rfl
  simp only [runSteps, hmove]
  cases step (s.requestAt a q) <;> rfl

variable {s a q r}

/-- A caller that moves to `a` and asks for `q` succeeds exactly when the request commits there. -/
theorem runSteps_move_request_success_iff {t : State} :
    runSteps 2 { s with inbox := [.moveCursor a, .request q] } = .next t ∧ t.ok = true ↔
      ∃ r, (s.requestAt a q).Commits q r ∧ t = s.committedAt a q r := by
  have hq : (s.requestAt a q).inbox = [.request q] := rfl
  rw [runSteps_move_request]
  constructor
  · rintro ⟨h, hok⟩
    exact step_request_success hq h hok
  · rintro ⟨r, hcommits, rfl⟩
    exact ⟨step_request_of_commits hq hcommits, rfl⟩

/-- Another transaction changes nothing that decides whether this one commits, and with which bytes: the configuration,
the surroundings and this caller's own cursor. -/
theorem committedAt_requestAt_jobOf (b : Addr) (q' : Req) (r' : Record) :
    ((s.committedAt b q' r').requestAt a q).jobOf q r = (s.requestAt a q).jobOf q r := rfl

theorem committedAt_requestAt_commits_iff (b : Addr) (q' : Req) (r' : Record) :
    ((s.committedAt b q' r').requestAt a q).Commits q r ↔ (s.requestAt a q).Commits q r := Iff.rfl

/-- Two commits at regions that share no address leave the same buffer in either order. -/
theorem committedAt_comm_buf {b : Addr} {q' : Req} {r' : Record} (hwf : Memory.wf s.buf = true)
    (hab : a.toNat + 22 ≤ b.toNat ∨ b.toNat + 22 ≤ a.toNat) (h : (s.requestAt a q).Commits q r)
    (h' : (s.requestAt b q').Commits q' r') :
    ((s.committedAt b q' r').committedAt a q r).buf = ((s.committedAt a q r).committedAt b q' r').buf := by
  simp only [State.committedAt_buf, committedAt_requestAt_jobOf]
  refine (writeBytes_comm hwf fun x => ?_).symm
  exact (outside_or_outside h.no_wrap h'.no_wrap hab x).imp (·.mono h.bytes_length_le) (·.mono h'.bytes_length_le)

end

/-- Settles O51: each transaction commits after the other exactly as before it, and their bytes share no address. -/
theorem disjointTransactionsCommute : Obligations.DisjointTransactionsCommute := by
  intro s u u' a b q q' hwf hab hu hok hu' hok'
  obtain ⟨r, hr, rfl⟩ := runSteps_move_request_success_iff.1 ⟨hu, hok⟩
  obtain ⟨r', hr', rfl⟩ := runSteps_move_request_success_iff.1 ⟨hu', hok'⟩
  rw [committedAt_requestAt_commits_iff] at hr'
  have hfirst := runSteps_move_request_success_iff.2 ⟨r', hr', rfl⟩
  have hsecond := runSteps_move_request_success_iff.2
    ⟨r, (committedAt_requestAt_commits_iff b q' r').2 hr, rfl⟩
  exact ⟨s.committedAt b q' r', (s.committedAt b q' r').committedAt a q r, hfirst.1, hfirst.2, hsecond.1, hsecond.2,
    committedAt_comm_buf hwf hab hr hr', by simp, by simp⟩

end Sys2Proof.Machine

/-! PROOFS. The decoder and the encoder (R61 to R73, R113): each field of bytes or bits against what is read from it, then the
rows. -/

namespace Sys2Proof

open Machine

/-! ### Little-endian fields (R10, R44) -/

/-- A field of `n` bytes reads the low `8n` bits alone. -/
theorem le_congr {v u : BitVec 64} {n : Nat} (h : ∀ i < 8 * n, v.getLsbD i = u.getLsbD i) : le v n = le u n := by
  refine List.ext_getElem (by simp) fun k hk _ => ?_
  rw [le_getElem, le_getElem]
  ext j hj
  rw [le_length] at hk
  simp only [BitVec.getElem_extractLsb']
  exact h _ (by omega)

/-- Up to 8 bytes, a byte list is the field of its number. -/
theorem le_leValue {bs : List Byte} (h : bs.length ≤ 8) : le (leValue bs) bs.length = bs := by
  induction bs with
  | nil => rfl
  | cons b bs ih =>
    rw [List.length_cons] at h
    have head : (leValue (b :: bs)).setWidth 8 = b := by
      ext i hi
      simp [leValue]
    have tail : le (leValue (b :: bs) >>> 8) bs.length = bs := by
      refine (le_congr fun i hi => ?_).trans (ih (by omega))
      have h64 : i < 64 := by omega
      simp [leValue, BitVec.getLsbD_eq_getElem h64, show 8 + i < 64 by omega]
    rw [List.length_cons, le, head, tail]

/-- The low bits of a field's number are the value's. -/
theorem setWidth_leValue_le (v : BitVec 64) {n m : Nat} (hm : m ≤ 8 * n) (h64 : m ≤ 64) :
    (leValue (le v n)).setWidth m = v.setWidth m := by
  ext i hi
  rw [BitVec.getElem_setWidth, BitVec.getElem_setWidth, leValue_le v n i (by omega)]
  simp [show i < 8 * n by omega]

/-- Sign extension from `w` bytes leaves those bytes alone (R150). -/
theorem le_sextBytes (v : BitVec 64) {w : Nat} (hw : w ≤ 8) : le (sextBytes v w) w = le v w := by
  refine le_congr fun i hi => ?_
  have h64 : i < 64 := by omega
  rw [sextBytes, BitVec.getLsbD_signExtend]
  simp [hi, h64]

/-- A sign-extended value is its own sign extension. -/
theorem sextBytes_idem (v : BitVec 64) {w : Nat} (hw : w ≤ 8) : sextBytes (sextBytes v w) w = sextBytes v w := by
  rw [← sextBytes_leValue_le, le_sextBytes v hw, sextBytes_leValue_le]

theorem LegalWidth.le_eight {w : Nat} (h : LegalWidth w) : w ≤ 8 := by
  rcases h with rfl | rfl | rfl | rfl <;> decide

/-! ### Descriptors (R70, R71, R113) -/

section
variable (un : BitVec 3) (sc : BitVec 4) (i b : Code) (d : BitVec 32)

/-- Which field each bit of a memory descriptor belongs to (R70). -/
theorem getLsbD_descMem {k : Nat} (hk : k < 64) :
    (descMem un sc i b d).getLsbD k =
      if k < 32 then d.getLsbD k else if k < 44 then b.getLsbD (k - 32) else if k < 56 then i.getLsbD (k - 44)
      else if k < 60 then sc.getLsbD (k - 56) else if k < 63 then un.getLsbD (k - 60) else true := by
  have top : ∀ k < 64, (0x8000000000000000 : BitVec 64).getLsbD k = decide (k = 63) := by decide
  unfold descMem
  grind

@[simp] theorem isMem_descMem : isMem (descMem un sc i b d) = true := getLsbD_descMem un sc i b d (by decide)

@[simp] theorem descMem_unused : (descMem un sc i b d).extractLsb' 60 3 = un := by
  grind [getLsbD_descMem]

@[simp] theorem memScale_descMem : memScale (descMem un sc i b d) = sc := by
  unfold memScale
  grind [getLsbD_descMem]

@[simp] theorem memIndex_descMem : memIndex (descMem un sc i b d) = i := by
  unfold memIndex
  grind [getLsbD_descMem]

@[simp] theorem memBase_descMem : memBase (descMem un sc i b d) = b := by
  unfold memBase
  grind [getLsbD_descMem]

theorem descMem_disp : (descMem un sc i b d).extractLsb' 0 32 = d := by
  grind [getLsbD_descMem]

@[simp] theorem memDisp_descMem : memDisp (descMem un sc i b d) = d.signExtend 64 := by
  rw [memDisp, descMem_disp]

/-- R113's helper leaves bits 62:60 zero. -/
theorem memOperand_eq_descMem : memOperand b sc i d = descMem 0 sc i b d := by
  simp [memOperand, descMem]

theorem decodeDesc_descMem : decodeDesc (descMem un sc i b d) = .operandMem un sc i b d :=
  calc decodeDesc (descMem un sc i b d)
    _ = .operandMem _ (memScale _) (memIndex _) (memBase _) _ := if_pos (isMem_descMem un sc i b d)
    _ = .operandMem un sc i b d := by
      rw [descMem_unused, memScale_descMem, memIndex_descMem, memBase_descMem, descMem_disp]

end

section
variable (cls : BitVec 59) (code : BitVec 4)

@[simp] theorem isMem_descReg : isMem (descReg cls code) = false := by
  unfold isMem descReg
  grind

@[simp] theorem descReg_class : (descReg cls code).extractLsb' 4 59 = cls := by
  unfold descReg
  grind

@[simp] theorem regCode_descReg : regCode (descReg cls code) = code := by
  unfold regCode descReg
  grind

theorem decodeDesc_descReg : decodeDesc (descReg cls code) = .operandReg cls code := by
  have hmem : (descReg cls code).getLsbD 63 = false := isMem_descReg cls code
  calc decodeDesc (descReg cls code)
    _ = .operandReg _ (regCode _) := by rw [decodeDesc, hmem]; rfl
    _ = .operandReg cls code := by rw [descReg_class, regCode_descReg]

end

/-- A descriptor is the descriptor of the fields read from it. -/
theorem encode_decodeDesc (d : Desc) : encode (decodeDesc d) = .field .operand (le d 8) := by
  unfold decodeDesc
  split
  next hmem =>
    have : descMem (d.extractLsb' 60 3) (d.extractLsb' 56 4) (d.extractLsb' 44 12) (d.extractLsb' 32 12)
        (d.extractLsb' 0 32) = d := by
      apply BitVec.eq_of_getLsbD_eq
      grind [getLsbD_descMem]
    rw [encode, this]
  next hreg =>
    have : descReg (d.extractLsb' 4 59) (d.extractLsb' 0 4) = d := by
      unfold descReg
      grind
    rw [encode, this]

theorem wellFormed_decodeDesc (d : Desc) : WellFormed (decodeDesc d) := by
  unfold decodeDesc
  split <;> rfl

/-- Settles O4: the helper's descriptor is one of the layout's, whose fields read back. -/
theorem builtMemoryOperandReadsBack : Obligations.BuiltMemoryOperandReadsBack := by
  intro b sc i d
  simp only [memOperand_eq_descMem, isReg_eq, isMem_descMem, memBase_descMem, memScale_descMem, memIndex_descMem,
    memDisp_descMem, descMem_unused]
  decide

/-! ### Format tags (R73) -/

/-- Every tag of 13 and above is unrealized (R232). -/
theorem decodeTag_of_ge {t : Byte} (h : 13 ≤ t.toNat) : decodeTag t = .fmtUnrealized t := by
  obtain ⟨n, hn⟩ := Nat.exists_eq_add_of_le' h
  rw [decodeTag, hn]
  rfl

theorem encode_decodeTag (t : Byte) : encode (decodeTag t) = .tag t := by
  revert t; decide

theorem wellFormed_decodeTag (t : Byte) : WellFormed (decodeTag t) := by
  revert t; decide

/-! ### Fields of one byte (R61 to R67) -/

theorem decodeByte_rex (w r x b : Bool) : decodeByte .rex (rexByteOf w r x b) = .ok (.rex w r x b) := by
  revert w r x b; decide

theorem rexByteOf_bits {b : Byte} (h : b.extractLsb' 4 4 = 4) :
    rexByteOf (b.getLsbD 3) (b.getLsbD 2) (b.getLsbD 1) (b.getLsbD 0) = b := by
  revert b; decide

theorem decodeByte_opcReg (o : BitVec 5) (r : BitVec 3) : decodeByte .opcReg (opcRegByte o r) = .ok (.opc1Reg o r) := by
  revert o r; decide

theorem opcRegByte_bits (b : Byte) : opcRegByte (b.extractLsb' 3 5) (b.extractLsb' 0 3) = b := by
  revert b; decide

/-- A byte `mmrrrbbb` reads back, as a ModRM byte and, in the same layout, as a SIB byte. -/
theorem pattern233_bits (m : BitVec 2) (r b : BitVec 3) :
    (pattern233 m r b).extractLsb' 6 2 = m ∧ (pattern233 m r b).extractLsb' 3 3 = r ∧
      (pattern233 m r b).extractLsb' 0 3 = b := by
  revert m r b; decide

theorem pattern233_of_bits (b : Byte) : pattern233 (b.extractLsb' 6 2) (b.extractLsb' 3 3) (b.extractLsb' 0 3) = b := by
  revert b; decide

theorem decodeByte_modrm (m : BitVec 2) (r b : BitVec 3) : decodeByte .modrm (modrmByte m r b) = .ok (.modrm m r b) := by
  obtain ⟨hm, hr, hb⟩ := pattern233_bits m r b
  rw [modrmByte_eq, decodeByte, hm, hr, hb]

theorem decodeByte_sib (m : BitVec 2) (r b : BitVec 3) : decodeByte .sib (sibByte m r b) = .ok (.sib m r b) := by
  obtain ⟨hm, hr, hb⟩ := pattern233_bits m r b
  rw [sibByte_eq, decodeByte, hm, hr, hb]

/-! ### Immediates (R69, R150) -/

/-- The row read from an immediate field is well-formed: the value is the sign extension of the field's bytes. -/
theorem wellFormed_imm_sextBytes (v : BitVec 64) {w : Nat} (hw : LegalWidth w) : WellFormed (.imm w (sextBytes v w)) := by
  have hfits := (fits_iff_sextBytes_eq _ w).2 (sextBytes_idem v hw.le_eight)
  exact decide_eq_true ⟨hw, (fits_iff _ w hw).1 hfits⟩

theorem encode_imm_sextBytes (v : BitVec 64) {w : Nat} (hw : LegalWidth w) :
    encode (.imm w (sextBytes v w)) = .field .imm (le v w) := by
  rw [encode, le_sextBytes v hw.le_eight]

/-- A well-formed immediate is the sign extension of its bytes. -/
theorem sextBytes_of_wellFormed {w : Nat} {v : BitVec 64} (h : WellFormed (.imm w v)) : sextBytes v w = v := by
  obtain ⟨hw, hrange⟩ := of_decide_eq_true h
  exact (fits_iff_sextBytes_eq v w).1 ((fits_iff v w hw).2 hrange)

/-! ### Words -/

theorem decode_disp_le (v : BitVec 64) : decode (.field .disp (le v 4)) = .ok (.disp32 (v.setWidth 32)) :=
  calc decode (.field .disp (le v 4))
    _ = .ok (.disp32 ((leValue (le v 4)).setWidth 32)) := rfl
    _ = .ok (.disp32 (v.setWidth 32)) := by rw [setWidth_leValue_le v (by decide) (by decide)]

theorem decode_imm_le (v : BitVec 64) {w : Nat} (hw : LegalWidth w) :
    decode (.field .imm (le v w)) = .ok (.imm w (sextBytes v w)) := by
  have hdecode : decode (.field .imm (le v w)) = .ok (.imm w (sextBytes (leValue (le v w)) w)) := by
    rcases hw with rfl | rfl | rfl | rfl
    · rfl
    · rfl
    · rfl
    · rw [sextBytes_eight]; rfl
  rw [hdecode, sextBytes_leValue_le]

theorem decode_operand_le (v : BitVec 64) : decode (.field .operand (le v 8)) = .ok (decodeDesc v) :=
  calc decode (.field .operand (le v 8))
    _ = .ok (decodeDesc (leValue (le v 8))) := rfl
    _ = .ok (decodeDesc v) := by rw [leValue_le_eight]

/-- Settles O1: row by row, the field's layout law. -/
theorem encodedRowDecodesToItself : Obligations.EncodedRowDecodesToItself := by
  intro i hwf
  cases i with
  | fmtUnrealized t => exact congrArg Except.ok (decodeTag_of_ge (of_decide_eq_true hwf))
  | rex w r x b => exact decodeByte_rex w r x b
  | opc1Reg o r => exact decodeByte_opcReg o r
  | modrm m r b => exact decodeByte_modrm m r b
  | sib s x b => exact decodeByte_sib s x b
  | disp32 d => exact (decode_disp_le _).trans (by rw [BitVec.setWidth_setWidth_of_le _ (by decide), BitVec.setWidth_eq])
  | imm w v => exact (decode_imm_le v (of_decide_eq_true hwf).1).trans (by rw [sextBytes_of_wellFormed hwf])
  | operandReg cls code => exact (decode_operand_le _).trans (by rw [decodeDesc_descReg])
  | operandMem un sc x b d => exact (decode_operand_le _).trans (by rw [decodeDesc_descMem])
  | _ => rfl

/-- A byte the decoder reads in a field is the word of a well-formed row. -/
theorem decodeByte_encodes {slot : Slot} {b : Byte} {i : Instr} (h : decodeByte slot b = .ok i) :
    WellFormed i ∧ encode i = .field slot [b] := by
  cases slot
  case addr32 | seg | mp | esc | esc2 =>
    simp only [decodeByte] at h
    split_ifs at h <;> cases h <;> subst b <;> exact ⟨rfl, rfl⟩
  case rex =>
    simp only [decodeByte] at h
    split_ifs at h with hhigh
    cases h
    exact ⟨rfl, by rw [encode, rexByteOf_bits hhigh]⟩
  case opc1 | opc2 | disp => cases h; exact ⟨rfl, rfl⟩
  case opcReg => cases h; exact ⟨rfl, by rw [encode, opcRegByte_bits]⟩
  case modrm => cases h; exact ⟨rfl, by rw [encode, modrmByte_eq, pattern233_of_bits]⟩
  case sib => cases h; exact ⟨rfl, by rw [encode, sibByte_eq, pattern233_of_bits]⟩
  case imm =>
    cases h
    refine ⟨wellFormed_imm_sextBytes _ (.inl rfl), (encode_imm_sextBytes _ (.inl rfl)).trans ?_⟩
    rw [show le (leValue [b]) 1 = [b] from le_leValue (bs := [b]) (by simp)]
  case operand => cases h

/-- The words the decoder reads in a field: one byte, or the bytes of a number of 4, of a legal width, or of 8. -/
theorem decode_field_ok {slot : Slot} {bytes : List Byte} {i : Instr} (h : decode (.field slot bytes) = .ok i) :
    (∃ b, bytes = [b] ∧ decodeByte slot b = .ok i) ∨
    (slot = .disp ∧ ∃ v, bytes = le v 4 ∧ i = .disp32 (v.setWidth 32)) ∨
    (slot = .imm ∧ ∃ v w, LegalWidth w ∧ bytes = le v w ∧ i = .imm w (sextBytes v w)) ∨
    (slot = .operand ∧ ∃ v, bytes = le v 8 ∧ i = decodeDesc v) := by
  unfold decode at h
  split at h
  next => cases ‹RowWord.field slot bytes = _›
  next b heq => cases heq; exact .inl ⟨b, rfl, h⟩
  next heq => cases heq; cases h; exact .inr (.inl ⟨rfl, _, (le_leValue (by simp)).symm, rfl⟩)
  next heq => cases heq; cases h; exact .inr (.inr (.inl ⟨rfl, _, 2, .inr (.inl rfl), (le_leValue (by simp)).symm, rfl⟩))
  next heq =>
    cases heq; cases h; exact .inr (.inr (.inl ⟨rfl, _, 4, .inr (.inr (.inl rfl)), (le_leValue (by simp)).symm, rfl⟩))
  next heq =>
    cases heq; cases h
    exact .inr (.inr (.inl ⟨rfl, _, 8, .inr (.inr (.inr rfl)), (le_leValue (by simp)).symm, by rw [sextBytes_eight]⟩))
  next heq => cases heq; cases h; exact .inr (.inr (.inr ⟨rfl, _, (le_leValue (by simp)).symm, rfl⟩))
  next => cases h

/-- Settles O2: a tag is the tag of its row; a field's bytes are those of the number they hold, which the row keeps. -/
theorem decodedWordEncodesBack : Obligations.DecodedWordEncodesBack := by
  intro word i h
  cases word with
  | tag t =>
    cases h
    exact ⟨wellFormed_decodeTag t, encode_decodeTag t⟩
  | field slot bytes =>
    rcases decode_field_ok h with ⟨b, rfl, hb⟩ | ⟨rfl, v, rfl, rfl⟩ | ⟨rfl, v, w, hw, rfl, rfl⟩ | ⟨rfl, v, rfl, rfl⟩
    · exact decodeByte_encodes hb
    · refine ⟨rfl, congrArg _ (le_congr fun k hk => ?_)⟩
      simp [hk, show k < 64 by omega]
    · exact ⟨wellFormed_imm_sextBytes v hw, encode_imm_sextBytes v hw⟩
    · exact ⟨wellFormed_decodeDesc v, encode_decodeDesc v⟩

/-- Settles O3: each word is written out. -/
theorem writtenWordsDecode : Obligations.WrittenWordsDecode := by
  unfold Obligations.WrittenWordsDecode
  decide

end Sys2Proof

/-! PROOFS. The emitted fields and the descriptors, one row of the opcode table each (R60 to R71): when a row stages its bytes,
and what it leaves alone. -/

namespace Sys2Proof.Machine

/-! ### What staging and looking leave alone -/

section
variable {s : State} {i : Instr}

theorem keepsAllButStaging_stage (s : State) (bs : List Byte) : KeepsAllButStaging s (s.stage bs) :=
  ⟨rfl, fun _ => rfl, rfl, rfl, rfl, rfl, rfl, rfl, rfl, rfl, rfl⟩

theorem keepsAllButStaging_stage_latchModrm (s : State) (bs : List Byte) (b : Byte) :
    KeepsAllButStaging s ((s.stage bs).latchModrm b) :=
  ⟨rfl, fun _ => rfl, rfl, rfl, rfl, rfl, rfl, rfl, rfl, rfl, rfl⟩

theorem keepsAllButStaging_latchView (s : State) (v : View) : KeepsAllButStaging s (s.latchView v) :=
  ⟨rfl, fun _ => rfl, rfl, rfl, rfl, rfl, rfl, rfl, rfl, rfl, rfl⟩

/-- A row that stages bytes leaves the ModRM byte and the descriptor view alone too. -/
theorem exec_stage_frame (h : exec i s = .next (s.stage bs)) :
    ∃ t, exec i s = .next t ∧ KeepsAllButStaging s t ∧ t.work.modrm = s.work.modrm ∧ t.work.view = s.work.view ∧
      t.work.staged = s.work.staged ++ bs :=
  ⟨s.stage bs, h, keepsAllButStaging_stage s bs, rfl, rfl, rfl⟩

/-- A row whose bytes stand under a condition stages them exactly when the condition holds (R60). -/
theorem exec_stage_if_frame {asked c : Prop} [Decidable c] {bs : List Byte}
    (h : exec i s = .next (s.stage (if c then bs else []))) (hc : asked ↔ c) :
    ∃ t, exec i s = .next t ∧ KeepsAllButStaging s t ∧ t.work.modrm = s.work.modrm ∧ t.work.view = s.work.view ∧
      (asked → t.work.staged = s.work.staged ++ bs) ∧ (¬ asked → t.work.staged = s.work.staged) := by
  obtain ⟨t, hexec, hkeeps, hmodrm, hview, hstaged⟩ := exec_stage_frame h
  refine ⟨t, hexec, hkeeps, hmodrm, hview, fun ha => ?_, fun hn => ?_⟩
  · rw [hstaged, if_pos (hc.1 ha)]
  · rw [hstaged, if_neg (fun h => hn (hc.2 h)), List.append_nil]

end

/-! ### Prefixes, REX, escapes and opcode bytes -/

/-- Settles O9: each row stages one line of the dispatcher's prefixes. -/
theorem prefixRowsFollowTheRequest : Obligations.PrefixRowsFollowTheRequest := by
  rintro s i asked b (⟨rfl, ha, rfl⟩ | ⟨rfl, ha, rfl⟩ | ⟨rfl, ha, rfl⟩ | ⟨rfl, ha, rfl⟩ | ⟨rfl, ha, rfl⟩ |
    ⟨rfl, ha, rfl⟩ | ⟨rfl, ha, rfl⟩)
  all_goals exact exec_stage_if_frame rfl ha

theorem esc_ne_none_iff (e : Esc) : e ≠ .none ↔ e = .e0F ∨ e = .e0F38 ∨ e = .e0F3A := by
  cases e <;> decide

/-- Settles O10: each row stages one line of the serializer. -/
theorem selectorRowsFollowTheRecord : Obligations.SelectorRowsFollowTheRecord := by
  rintro s i asked b (⟨rfl, ha, rfl⟩ | ⟨rfl, ha, rfl⟩ | ⟨rfl, ha, rfl⟩ | ⟨rfl, ha, rfl⟩ | ⟨rfl, ha, rfl⟩ |
    ⟨rfl, ha, rfl⟩)
  case inr.inr.inr.inl => exact exec_stage_if_frame rfl (ha.trans (esc_ne_none_iff s.work.record.esc))
  all_goals exact exec_stage_if_frame rfl ha

theorem rexPattern_of_clear {f : Flags} (hw : f.w = false) (hr : f.r = false) (hx : f.x = false) (hb : f.b = false) :
    rexPattern f = 0x40 := by
  rw [rexPattern, hw, hr, hx, hb]
  rfl

/-- Settles O11: the row stages the REX line of its own four bits and the transaction's `rex_req`. -/
theorem rexRowStandsWithAnyFlag : Obligations.RexRowStandsWithAnyFlag := by
  intro s w r x b
  let f : Flags := { s.work.flags with w := w, r := r, x := x, b := b }
  have hexec : exec (.rex w r x b) s = .next (s.stage (if rexPresent f then [rexByte f] else [])) := rfl
  obtain ⟨t, h, hkeeps, hmodrm, hview, hset, hclear⟩ := exec_stage_if_frame hexec (rexPresent_iff f).symm
  rw [rexByte_eq] at hset
  exact ⟨t, h, hkeeps, hmodrm, hview, hset, hclear, fun hreq hw hr hx hb =>
    rexPattern_of_clear (f := f) hw hr hx hb ▸ hset (.inl hreq)⟩

theorem hasOpcReg_iff (fmt : BitVec 8) : hasOpcReg fmt = true ↔ 9 ≤ fmt.toNat ∧ fmt.toNat ≤ 11 := by
  revert fmt; decide

theorem opcRegByte_eq (o : BitVec 5) (r : BitVec 3) : opcRegByte o r = (o ++ r : BitVec 8) := by
  revert o r; decide

/-- Settles O12: three rows of one byte each, the first without a condition. -/
theorem opcodeByteRows : Obligations.OpcodeByteRows := by
  intro s o p hi r
  refine ⟨exec_stage_frame rfl, ?opc2, ?opc1Reg⟩
  case opc2 =>
    simpa only [ne_eq, Decidable.not_not] using
      exec_stage_if_frame (asked := s.work.record.opc2 ≠ none) rfl Option.ne_none_iff_isSome
  case opc1Reg =>
    rw [← opcRegByte_eq]
    exact exec_stage_if_frame rfl (by rw [Bool.and_eq_true, hasOpcReg_iff, Option.isNone_iff_eq_none])

/-! ### ModRM, SIB and displacement -/

theorem hasModrm_iff (fmt : BitVec 8) : hasModrm fmt = true ↔ 1 ≤ fmt.toNat ∧ fmt.toNat ≤ 6 := by
  revert fmt; decide

/-- R209 of a ModRM byte: `mod` is not 3 and `rm` is 4. -/
theorem sibFollows_iff (b : Byte) :
    sibFollows (modOf b) (rmOf b) = true ↔
      ∃ (m : BitVec 2) (g : BitVec 3), m ≠ 3 ∧ b = (m ++ g ++ (4 : BitVec 3) : BitVec 8) := by
  revert b; decide

theorem wantsSib_iff (k : Work) :
    wantsSib k = true ↔
      ∃ (m : BitVec 2) (g : BitVec 3), m ≠ 3 ∧ k.modrm = some (m ++ g ++ (4 : BitVec 3) : BitVec 8) := by
  unfold wantsSib
  cases k.modrm with
  | none => simp
  | some b => simpa using sibFollows_iff b

/-- In a format with a ModRM byte the row MODRM stages its byte and keeps it for R209 and R210. -/
theorem exec_modrm_of_hasModrm {s : State} (m : BitVec 2) (g rm : BitVec 3) (h : hasModrm s.work.record.fmt = true) :
    exec (.modrm m g rm) s = .next ((s.stage [pattern233 m g rm]).latchModrm (pattern233 m g rm)) := by
  rw [← modrmByte_eq]
  exact if_pos h

/-- In any other format it stages nothing. -/
theorem exec_modrm_of_not_hasModrm {s : State} (m : BitVec 2) (g rm : BitVec 3)
    (h : ¬ hasModrm s.work.record.fmt = true) : exec (.modrm m g rm) s = .next (s.stage []) := if_neg h

/-- Settles O13: the row MODRM stages and latches, the row SIB stages under R209. -/
theorem modrmAndSibRows : Obligations.ModrmAndSibRows := by
  intro s m sc g rm idx b
  refine ⟨?modrm, ?sib⟩
  case modrm =>
    rw [← hasModrm_iff]
    by_cases h : hasModrm s.work.record.fmt = true
    · exact ⟨_, exec_modrm_of_hasModrm m g rm h, keepsAllButStaging_stage_latchModrm _ _ _, rfl, fun _ => ⟨rfl, rfl⟩,
        fun hn => absurd h hn⟩
    · exact ⟨_, exec_modrm_of_not_hasModrm m g rm h, keepsAllButStaging_stage _ _, rfl, fun hp => absurd hp h,
        fun _ => ⟨List.append_nil _, rfl⟩⟩
  case sib =>
    have hexec : exec (.sib sc idx b) s = .next (s.stage (if wantsSib s.work then [sibByte sc idx b] else [])) := rfl
    rw [sibByte_eq] at hexec
    exact exec_stage_if_frame hexec (wantsSib_iff s.work).symm

theorem viewForces32_iff (v : View) :
    viewForces32 v = true ↔ ∃ b k i sc x, v = .mem b k i sc x ∧ (k = .noBase ∨ k = .ripRel) := by
  cases v with
  | none => simp [viewForces32]
  | reg => simp [viewForces32]
  | mem b k i sc x =>
    simp only [viewForces32, Bool.or_eq_true, beq_iff_eq]
    constructor
    · exact fun h => ⟨b, k, i, sc, x, rfl, h⟩
    · rintro ⟨_, _, _, _, _, heq, h⟩
      cases heq
      exact h

/-- The displacement is one byte wide exactly for `mod` 1 that is not forced (R68, R210). -/
theorem dispLen_eq_one_iff (forced : Bool) (m : BitVec 2) : dispLen forced m = 1 ↔ forced = false ∧ m = 1 := by
  revert forced m; decide

/-- It is four bytes wide exactly when forced or for `mod` 2. -/
theorem dispLen_eq_four_iff (forced : Bool) (m : BitVec 2) : dispLen forced m = 4 ↔ forced = true ∨ m = 2 := by
  revert forced m; decide

theorem dispWidth_of_none {k : Work} (h : k.modrm = none) : dispWidth k = 0 := by
  rw [dispWidth, h]

theorem dispWidth_of_modrm {k : Work} {m : BitVec 2} {g rm : BitVec 3}
    (h : k.modrm = some (m ++ g ++ rm : BitVec 8)) : dispWidth k = dispLen (viewForces32 k.view) m := by
  have hm : modOf (m ++ g ++ rm : BitVec 8) = m := (pattern233_bits m g rm).1
  rw [dispWidth, h]
  exact congrArg (dispLen _) hm

/-- A field of `n` bytes, byte by byte (R44). -/
theorem le_eq_map (v : BitVec 64) (n : Nat) : le v n = (List.range n).map fun k => v.extractLsb' (8 * k) 8 :=
  List.ext_getElem (by simp) fun k hk _ => by rw [le_getElem]; simp

theorem le_disp32 (d : BitVec 32) :
    le (d.setWidth 64) 4 = [d.extractLsb' 0 8, d.extractLsb' 8 8, d.extractLsb' 16 8, d.extractLsb' 24 8] :=
  calc le (d.setWidth 64) 4
    _ = (List.range 4).map fun k => (d.setWidth 64).extractLsb' (8 * k) 8 := le_eq_map _ 4
    _ = (List.range 4).map fun k => d.extractLsb' (8 * k) 8 := by
      refine List.map_congr_left fun k hk => ?_
      rw [List.mem_range] at hk
      ext j hj
      simp [show 8 * k + j < 64 by omega]
    _ = _ := rfl

/-- A displacement row of width `n` stages its bytes exactly when the field is `n` bytes wide, so none without a ModRM byte. -/
theorem exec_stage_disp_frame {s : State} {i : Instr} {n : Nat} {bs : List Byte} {m : BitVec 2} {g rm : BitVec 3} {c : Prop}
    [Decidable c] (hn : n ≠ 0) (hexec : exec i s = .next (s.stage (if dispWidth s.work = n then bs else [])))
    (hc : dispLen (viewForces32 s.work.view) m = n ↔ c) :
    ∃ t, exec i s = .next t ∧ KeepsAllButStaging s t ∧ t.work.modrm = s.work.modrm ∧ t.work.view = s.work.view ∧
      (s.work.modrm = some (m ++ g ++ rm : BitVec 8) →
        t.work.staged = s.work.staged ++ (if c then bs else [])) ∧
      (s.work.modrm = none → t.work.staged = s.work.staged) := by
  obtain ⟨t, h, hkeeps, hmodrm, hview, hstaged⟩ := exec_stage_frame hexec
  refine ⟨t, h, hkeeps, hmodrm, hview, fun hsome => ?_, fun hnone => ?_⟩
  · rw [hstaged, dispWidth_of_modrm hsome]
    simp only [hc]
  · rw [hstaged, dispWidth_of_none hnone, if_neg hn.symm, List.append_nil]

/-- Settles O14: both rows are displacement rows, of width 1 and 4. -/
theorem displacementRowsFollowMod : Obligations.DisplacementRowsFollowMod := by
  intro s d d' m g rm forced hforced
  have hview : viewForces32 s.work.view = forced := Bool.eq_iff_iff.2 ((viewForces32_iff _).trans hforced.symm)
  rw [← le_disp32]
  exact ⟨exec_stage_disp_frame (by decide) rfl (hview ▸ dispLen_eq_one_iff _ m),
    exec_stage_disp_frame (by decide) rfl (hview ▸ dispLen_eq_four_iff _ m)⟩

/-! ### Immediates -/

/-- An immediate in its two outcomes (R151). -/
theorem immEmit_of_legal {v : BitVec 64} {w : Nat} (h : ImmLegal v w) : immEmit v w = .ok (le v w) :=
  (immEmit_ok_iff v w _).2 ⟨h.1, (fits_iff v w h.1).2 h.2, rfl⟩

theorem exec_imm_of_not_hasImm {s : State} (w : Nat) (v : BitVec 64) (h : ¬ hasImm s.work.record.fmt = true) :
    exec (.imm w v) s = .next (s.stage []) := if_neg h

theorem exec_imm_of_legal {s : State} {w : Nat} {v : BitVec 64} (h : hasImm s.work.record.fmt = true)
    (hv : ImmLegal v w) : exec (.imm w v) s = .next (s.stage (le v w)) := by
  show execImm w v s = _
  rw [execImm, if_pos h, immEmit_of_legal hv]

theorem exec_imm_of_not_legal {s : State} {w : Nat} {v : BitVec 64} (h : hasImm s.work.record.fmt = true)
    (hv : ¬ ImmLegal v w) : exec (.imm w v) s = .next s.fail := by
  show execImm w v s = _
  rw [execImm, if_pos h]
  cases hi : immEmit v w with
  | error e => rfl
  | ok bs => exact absurd ((immEmit_ok v w).1 ⟨bs, hi⟩) hv

/-- Settles O15: staged, failed, or absent. -/
theorem immediateRowChecksAndStages : Obligations.ImmediateRowChecksAndStages := by
  intro s w v
  simp only [← hasImm_iff]
  by_cases h : hasImm s.work.record.fmt = true
  · by_cases hv : ImmLegal v w
    · exact ⟨_, exec_imm_of_legal h hv, fun _ _ => ⟨keepsAllButStaging_stage _ _, rfl, rfl, rfl⟩,
        fun _ hn => absurd hv hn, fun hn => absurd h hn⟩
    · exact ⟨_, exec_imm_of_not_legal h hv, fun _ hp => absurd hp hv,
        fun _ _ => ⟨rfl, rfl, fun _ => fail_read_outside, rfl, rfl, rfl, rfl⟩, fun hn => absurd h hn⟩
  · exact ⟨_, exec_imm_of_not_hasImm w v h, fun hp => absurd hp h, fun hp => absurd hp h,
      fun _ => ⟨keepsAllButStaging_stage _ _, rfl, rfl, List.append_nil _⟩⟩

/-! ### Descriptors -/

/-- A register descriptor as a number (R71). -/
theorem descReg_toNat (cls : BitVec 59) (code : BitVec 4) :
    (descReg cls code).toNat = cls.toNat * 16 + code.toNat := by
  have hreg := mt (isMem_iff (descReg cls code)).2 (by simp)
  have hcls := congrArg BitVec.toNat (descReg_class cls code)
  have hcode := regCode_toNat (descReg cls code)
  rw [BitVec.extractLsb'_toNat, Nat.shiftRight_eq_div_pow] at hcls
  rw [regCode_descReg] at hcode
  omega

/-- What the descriptor decoder says of a register descriptor, in terms of its two fields (R100 to R103, R110). -/
theorem viewOf_descReg (rip : Code) (cls : BitVec 59) (code : BitVec 4) :
    viewOf rip (descReg cls code) = .reg code (decide (cls.toNat = 0x10))
      (decide (cls.toNat = 0x20 ∧ 4 ≤ code.toNat ∧ code.toNat ≤ 7))
      (decide (cls.toNat = 0x10 ∧ 4 ≤ code.toNat ∧ code.toNat ≤ 7)) := by
  have hcode := code.isLt
  have hgpl : isGpl (descReg cls code) = decide (cls.toNat = 0x10) := by
    rw [Bool.eq_iff_iff, isGpl_iff, descReg_toNat, decide_eq_true_eq]; omega
  have hgph : isGph (descReg cls code) = decide (cls.toNat = 0x20 ∧ 4 ≤ code.toNat ∧ code.toNat ≤ 7) := by
    rw [Bool.eq_iff_iff, isGph_iff, HighByte, descReg_toNat, decide_eq_true_eq]; omega
  have hrex : isRex8Gpl (descReg cls code) = decide (cls.toNat = 0x10 ∧ 4 ≤ code.toNat ∧ code.toNat ≤ 7) := by
    rw [Bool.eq_iff_iff, isRex8Gpl_iff, descReg_toNat, decide_eq_true_eq]; omega
  simp [viewOf, hgpl, hgph, hrex]

theorem viewOf_descMem (rip : Code) (un : BitVec 3) (sc : BitVec 4) (i b : Code) (d : BitVec 32) :
    viewOf rip (descMem un sc i b d) = .mem b (baseKind rip b) i sc (d.signExtend 64) := by
  simp [viewOf]

/-- Settles O16: both rows latch the decoder's answer and do no more. -/
theorem descriptorRowsNeverFail : Obligations.DescriptorRowsNeverFail := by
  intro s cls code un sc i b d
  exact ⟨⟨_, rfl, keepsAllButStaging_latchView _ _, rfl, rfl, viewOf_descReg _ cls code⟩,
    ⟨_, rfl, keepsAllButStaging_latchView _ _, rfl, rfl, viewOf_descMem _ un sc i b d⟩⟩

end Sys2Proof.Machine

/-! PROOFS. Requests and probes as steps (R51, R60, R73, R75, R253), the reserved codes of the addressing forms (R74), and the
register codes in the bytes of a pair (R64, R66). -/

namespace Sys2Proof.Machine

/-! ### Steps that run a row -/

/-- An admitted request whose mnemonic has a record runs the format of the record's tag on the loaded registers. -/
theorem step_request {s : State} {q : Req} {rest : List Input} {record : Record} (h : s.inbox = .request q :: rest)
    (ha : s.Admitted) (hr : tableRecord s.params.table q.mnem = some record) :
    step s = exec (decodeTag record.fmt) ((s.take rest).load q record) :=
  calc step s
    _ = openTransaction q (s.take rest) runTag := step_of_inbox h
    _ = exec (decodeTag record.fmt) ((s.take rest).load q record) :=
      openTransaction_some (s := s.take rest) runTag ((passes_iff s).2 ha) ((lookup_eq s.params q.mnem).trans hr)

/-- Settles O28: the loaded registers are the start values written out. -/
theorem requestRunsItsFormat : Obligations.RequestRunsItsFormat := by
  intro s q rest record i h ha hr hi
  obtain rfl : decodeTag record.fmt = i := Except.ok.inj hi
  exact ⟨step_request h ha hr, decodeTag_of_ge⟩

/-- An admitted probe of a word that stands for no row is refused (log 13). -/
theorem runField_error {slot : Slot} {bytes : List Byte} {s : State} {e : DecodeError} (hp : Passes s.env s.cur)
    (hd : decode (.field slot bytes) = .error e) : runField slot bytes s = .refused (.undecodable slot bytes) := by
  rw [runField, whenAdmitted_passes _ hp, hd]

/-- Settles O29: the step of a probe is the probe of the word, in its two answers. -/
theorem probeRunsItsRow : Obligations.ProbeRunsItsRow := by
  intro s slot bytes rest h ha
  have hstep : step s = runField slot bytes (s.take rest) := step_of_inbox h
  have hp : Passes (s.take rest).env (s.take rest).cur := (passes_iff s).2 ha
  exact ⟨fun i hi => hstep.trans (runField_ok hp hi), fun e he => hstep.trans (runField_error hp he)⟩

/-- Settles O35: the job of the loaded registers is the request's. -/
theorem requestCommitsLayoutOrFails : Obligations.RequestCommitsLayoutOrFails := by
  intro s q rest record h ha hr
  have hstep := step_request h ha hr
  exact ⟨fun hlegal => hstep.trans (exec_format_of_legal (s := (s.take rest).load q record) hlegal),
    fun hlegal => hstep.trans (exec_format_of_not_legal (s := (s.take rest).load q record) hlegal)⟩

/-! ### Reserved codes (R74) -/

/-- A memory destination that resolves is one of three base forms (R201 to R204) beside one of two index forms (R197). -/
theorem resolve_mem_cases {rip : Code} {op : Desc} {fm : Form} (hm : isMem op = true) (h : resolve rip op = .ok fm) :
    ∃ ix : IndexForm, (ix.needed = true ↔ memIndex op ≠ 0) ∧ (ix.idx3 = 4 ↔ memIndex op = 0) ∧
      ((memBase op = 0 ∧ fm = ⟨0, 4, 5, ix.scale2, ix.idx3, true⟩) ∨
       (memBase op ≠ 0 ∧ memBase op = rip ∧ memIndex op = 0 ∧ fm = ⟨0, 5, 0, ix.scale2, ix.idx3, true⟩) ∨
       (memBase op ≠ 0 ∧ memBase op ≠ rip ∧
         fm = relocate ix ⟨codeLo3 (memBase op), modFor (codeLo3 (memBase op)) (memDisp op), false, false⟩)) := by
  obtain ⟨ix, bs, hix, hbs, rfl⟩ := (resolve_mem_iff rip op hm fm).1 h
  have hindex : (ix.needed = true ↔ memIndex op ≠ 0) ∧ (ix.idx3 = 4 ↔ memIndex op = 0) := by
    rcases (indexForm_ok_iff ..).1 hix with ⟨h0, rfl⟩ | ⟨h0, -, hlo, -, rfl⟩
    · exact ⟨iff_of_false nofun (not_not.2 h0), iff_of_true rfl h0⟩
    · exact ⟨iff_of_true rfl h0, iff_of_false hlo h0⟩
  refine ⟨ix, hindex.1, hindex.2, ?_⟩
  rcases (baseForm_ok_iff ..).1 hbs with ⟨h0, rfl⟩ | ⟨h0, hrip, hneeded, rfl⟩ | ⟨h0, hrip, -, rfl⟩
  · exact .inl ⟨h0, relocate_sib ix _ (.inr (.inl rfl))⟩
  · have hno : memIndex op = 0 := by simpa [hneeded] using hindex.1
    exact .inr (.inl ⟨h0, hrip, hno, relocate_noSib ix _ hneeded rfl (by decide)⟩)
  · exact .inr (.inr ⟨h0, hrip, rfl⟩)

/-- No ordinary base with `rm` 5 has `mod` 0 (R205). -/
theorem modFor_five_ne_zero (d : BitVec 64) : modFor 5 d ≠ 0 := by
  rw [modFor, if_neg fun h => h.2 rfl]
  split <;> decide

/-- Settles O39: the meaning of each code, over the three base forms; an ordinary base takes a SIB exactly for an index or a
code of 4. -/
theorem reservedCodesKeepTheirMeaning : Obligations.ReservedCodesKeepTheirMeaning := by
  intro rip op hm
  refine ⟨⟨fun ⟨fm, h⟩ => resolve_only_legal rip op h hm, fun h => resolve_legal fun _ => h⟩, fun fm h => ?_⟩
  obtain ⟨ix, hneeded, hidx, ⟨h0, rfl⟩ | ⟨h0, hrip, hno, rfl⟩ | ⟨h0, hrip, rfl⟩⟩ := resolve_mem_cases hm h
  · grind
  · grind
  · have hmod := modFor_ne_three (codeLo3 (memBase op)) (memDisp op)
    have hfive : codeLo3 (memBase op) = 5 → modFor (codeLo3 (memBase op)) (memDisp op) ≠ 0 := fun h =>
      h ▸ modFor_five_ne_zero _
    by_cases hsib : memIndex op ≠ 0 ∨ codeLo3 (memBase op) = 4
    · rw [relocate_sib ix _ (hsib.imp hneeded.2 .inr)]
      grind
    · obtain ⟨hindex, hlo⟩ := not_or.1 hsib
      rw [relocate_noSib ix _ (by simpa using mt hneeded.1 hindex) rfl hlo]
      grind

/-! ### The length formula (R75) -/

/-- Bytes `S` as prefixes and opcode with the flags `f`, the part `addr` from the ModRM byte on, and the immediate `imm`. -/
def Job.HasParts (j : Job) (f : Flags) (addr imm S : List Byte) : Prop :=
  ∃ front : List Byte, S = front ++ addr ++ imm ∧ front.length = lengthFormula j.req j.record f 0 0

namespace Job.HasParts

variable {j : Job}

theorem head (f : Flags) : j.HasParts f [] [] (j.head f) := ⟨j.head f, by simp, j.head_length f⟩

theorem regHead (r : Desc) : j.HasParts (opcFlags j.flags r) [] [] (j.regHead r) :=
  ⟨j.regHead r, by simp, j.regHead_length r⟩

theorem solo (dst : Desc) (k : BitVec 3) :
    j.HasParts (soloFlags j.rip j.flags dst) (layoutAddress j.rip k dst) [] (j.solo dst k) :=
  ⟨_, (List.append_nil _).symm, j.head_length _⟩

theorem pair (dst r : Desc) :
    j.HasParts (pairFlags j.rip j.flags dst r) (layoutAddress j.rip (r.setWidth 3) dst) [] (j.pair dst r) :=
  ⟨_, (List.append_nil _).symm, j.head_length _⟩

variable {f : Flags} {addr imm S : List Byte}

theorem append (h : j.HasParts f addr [] S) (imm : List Byte) : j.HasParts f addr imm (S ++ imm) := by
  obtain ⟨front, rfl, hlen⟩ := h
  exact ⟨front, by rw [List.append_nil], hlen⟩

theorem length_eq (h : j.HasParts f addr imm S) :
    S.length = lengthFormula j.req j.record f addr.length imm.length := by
  obtain ⟨front, rfl, hlen⟩ := h
  rw [lengthFormula_add, ← hlen, List.length_append, List.length_append]

/-- The ModRM byte stands where the formula without it ends. -/
theorem getElem?_modrm {b : Byte} {rest : List Byte} (h : j.HasParts f (b :: rest) imm S) :
    S[lengthFormula j.req j.record f 0 0]? = some b := by
  obtain ⟨front, rfl, hlen⟩ := h
  simp [← hlen]

end Job.HasParts

/-- The parts of a job's bytes: a ModRM part in the formats 1 to 6 alone, and the immediate of the formats that have one. -/
theorem Job.bytes_hasParts {j : Job} (h : j.Legal) :
    ∃ addr imm, j.HasParts j.finalFlags addr imm j.bytes ∧
      imm.length = (if j.record.fmt.toNat ∈ [2, 5, 6, 7, 8, 10, 12] then j.record.immsz else 0) ∧
      ((1 ≤ j.record.fmt.toNat ∧ j.record.fmt.toNat ≤ 6 ∧ ∃ k, addr = layoutAddress j.rip k j.dest) ∨
        (¬ (1 ≤ j.record.fmt.toNat ∧ j.record.fmt.toNat ≤ 6) ∧ addr = [])) := by
  unfold Job.Legal at h
  unfold Job.bytes Job.finalFlags Job.dest
  generalize j.record.fmt.toNat = n at h
  match n, h with
  | 0, _ => exact ⟨_, _, .head _, rfl, .inr ⟨by decide, rfl⟩⟩
  | 1, _ => exact ⟨_, _, .solo _ _, rfl, .inl ⟨by decide, by decide, _, rfl⟩⟩
  | 2, _ => exact ⟨_, _, (Job.HasParts.solo _ _).append _, le_length _ _, .inl ⟨by decide, by decide, _, rfl⟩⟩
  | 3, _ => exact ⟨_, _, .pair _ _, rfl, .inl ⟨by decide, by decide, _, rfl⟩⟩
  | 4, _ => exact ⟨_, _, .pair _ _, rfl, .inl ⟨by decide, by decide, _, rfl⟩⟩
  | 5, _ => exact ⟨_, _, (Job.HasParts.pair _ _).append _, le_length _ _, .inl ⟨by decide, by decide, _, rfl⟩⟩
  | 6, _ => exact ⟨_, _, (Job.HasParts.pair _ _).append _, le_length _ _, .inl ⟨by decide, by decide, _, rfl⟩⟩
  | 7, _ => exact ⟨_, _, (Job.HasParts.head _).append _, le_length _ _, .inr ⟨by decide, rfl⟩⟩
  | 8, _ => exact ⟨_, _, (Job.HasParts.head _).append _, le_length _ _, .inr ⟨by decide, rfl⟩⟩
  | 9, _ => exact ⟨_, _, .regHead _, rfl, .inr ⟨by decide, rfl⟩⟩
  | 10, _ => exact ⟨_, _, (Job.HasParts.regHead _).append _, le_length _ _, .inr ⟨by decide, rfl⟩⟩
  | 11, _ => exact ⟨_, _, .regHead _, rfl, .inr ⟨by decide, rfl⟩⟩
  | 12, _ => exact ⟨_, _, (Job.HasParts.head _).append _, le_length _ _, .inr ⟨by decide, rfl⟩⟩

/-- A record with every optional field, for the longest instruction (R75). -/
def longestRecord : Record :=
  { fmt := 2, mp := .p66, esc := .e0F38, w := true, opc1 := 0, opc2 := some 0, regc := some 0, immsz := 8, mask8 := 0 }

/-- A request with both prefixes and a destination with SIB and a 32-bit displacement. -/
def longestRequest : Req := { Req.idle with addr32 := true, seg := .fs, op0 := memOperand 0x100 1 0x101 0x1000 }

/-- The state in which that request waits, at cursor 0. -/
def longestState : State :=
  { State.reset with
    params := { State.reset.params with table := [(0, longestRecord)] }
    inbox := [.request longestRequest] }

/-- Settles O38: a success commits the parts of its job; the longest instruction takes 22 bytes. -/
theorem lengthFollowsTheFormula : Obligations.LengthFollowsTheFormula := by
  refine ⟨fun s t q rest hq h hok => ?formula, longestState, _, longestRequest, [], rfl, rfl, rfl, rfl⟩
  case formula =>
    have hwrap := step_request_no_wrap hq h
    obtain ⟨r, ⟨-, hl, hlegal⟩, rfl⟩ := step_request_success hq h hok
    obtain ⟨addr, imm, hparts, himm, haddr⟩ := Job.bytes_hasParts hlegal
    have hlen := hparts.length_eq
    have hmax := Job.bytes_length_le hlegal
    refine ⟨r, addr.length, imm.length, (lookup_eq s.params q.mnem).symm.trans hl,
      congrArg (s.cur + BitVec.ofNat 64 ·) hlen, hlen ▸ hmax, himm, ?_⟩
    rcases haddr with ⟨h1, h6, k, rfl⟩ | ⟨hno, rfl⟩
    · obtain ⟨md, g, rm, tail, hcons, hwidth⟩ := layoutAddress_length (s.jobOf q r).rip k (s.jobOf q r).dest
      refine ⟨fun hno => absurd ⟨h1, h6⟩ hno, fun _ => ⟨md, g, rm, ?_, hwidth⟩⟩
      have hbyte : (s.jobOf q r).bytes[lengthFormula q r (s.jobOf q r).finalFlags 0 0]? = _ :=
        (hcons ▸ hparts).getElem?_modrm
      obtain ⟨hk, hbyte⟩ := List.getElem?_eq_some_iff.1 hbyte
      rw [← hbyte, ← addr_toNat (c := s.cur) (by omega)]
      exact commit_read_inside (s := (s.take rest).load q r) hk hmax
    · exact ⟨fun _ => rfl, fun hp => absurd hp hno⟩

/-! ### The register codes of a pair -/

/-- A body whose transaction succeeded met its condition and committed its bytes. -/
theorem Emits.of_success {s t : State} {body : Except EncodeError (List Byte)} {P : Prop} {S : List Byte}
    (h : Emits s body P S) (hrun : runBody s body = .next t) (hok : t.ok = true) : t = s.commit S := by
  by_cases hP : P
  · exact Host.Outcome.next.inj (hrun.symm.trans (h.commit hP))
  · obtain rfl := Host.Outcome.next.inj (hrun.symm.trans (h.fail hP))
    cases hok

/-- Commits that move the cursor as far and leave the same bytes are commits of the same list. -/
theorem bytes_eq_of_commit_eq {s s' : State} {S S' : List Byte} (hS : S.length ≤ 22) (hS' : S'.length ≤ 22)
    (hcur : (s.commit S).cur - s.work.cur0 = (s'.commit S').cur - s'.work.cur0)
    (hbuf : ∀ k : Nat, k < ((s.commit S).cur - s.work.cur0).toNat →
      (s.commit S).buf.read (s.work.cur0 + BitVec.ofNat 64 k).toNat =
        (s'.commit S').buf.read (s'.work.cur0 + BitVec.ofNat 64 k).toNat) : S = S' := by
  have hmoved : ∀ (u : State) (U : List Byte), U.length ≤ 22 → ((u.commit U).cur - u.work.cur0).toNat = U.length := by
    intro u U hU
    rw [State.commit_cur, BitVec.add_comm, BitVec.add_sub_cancel, BitVec.toNat_ofNat, Nat.mod_eq_of_lt (by omega)]
  have hlen : S.length = S'.length := by rw [← hmoved s S hS, ← hmoved s' S' hS', hcur]
  refine List.ext_getElem hlen fun k hk hk' => Option.some.inj ?_
  rw [← commit_read_inside (s := s) hk hS, ← commit_read_inside (s := s') hk' hS']
  exact hbuf k (by rwa [hmoved s S hS])

theorem rexPattern_inj {f g : Flags} (h : rexPattern f = rexPattern g) :
    f.w = g.w ∧ f.r = g.r ∧ f.x = g.x ∧ f.b = g.b := by
  unfold rexPattern at h
  generalize f.w = w, f.r = r, f.x = x, f.b = b, g.w = w', g.r = r', g.x = x', g.b = b' at h ⊢
  revert w r x b w' r' x' b'
  decide

/-- The opcode bytes of one record tell REX.R and REX.B, whether or not a REX byte stands among them (R64). -/
theorem layoutOpcode_rexBits {r : Record} {f g : Flags} (h : layoutOpcode r f none = layoutOpcode r g none) :
    f.r = g.r ∧ f.b = g.b := by
  have hany : AnyRex f ↔ AnyRex g := by
    have hlen := congrArg List.length h
    rw [layoutOpcode_length, layoutOpcode_length] at hlen
    by_cases hf : AnyRex f <;> by_cases hg : AnyRex g <;> simp [hf, hg] at hlen ⊢
  by_cases hf : AnyRex f
  · unfold layoutOpcode at h
    rw [if_pos hf, if_pos (hany.1 hf)] at h
    have hrex := List.append_cancel_left (List.append_cancel_right (List.append_cancel_right h))
    obtain ⟨-, hr, -, hb⟩ := rexPattern_inj (List.singleton_injective hrex)
    exact ⟨hr, hb⟩
  · have hg := mt hany.2 hf
    simp only [AnyRex, not_or, Bool.not_eq_true] at hf hg
    obtain ⟨-, -, hr, -, hb⟩ := hf
    obtain ⟨-, -, hr', -, hb'⟩ := hg
    exact ⟨hr.trans hr'.symm, hb.trans hb'.symm⟩

/-- A register code is its field value and its REX bit (R103). -/
theorem regCode_eq_of_parts {a b : Desc} (hlo : lo3 a = lo3 b) (hhi : hi1 a = hi1 b) : regCode a = regCode b := by
  have hlo := congrArg BitVec.toNat hlo
  have hhi := (hi1_iff a).symm.trans ((Bool.eq_iff_iff.1 hhi).trans (hi1_iff b))
  rw [lo3_toNat, lo3_toNat] at hlo
  rw [← BitVec.toNat_inj, regCode_toNat, regCode_toNat]
  omega

theorem layoutAddress_reg {op : Desc} (h : isReg op = true) (rip : Code) (k : BitVec 3) :
    layoutAddress rip k op = [pattern233 3 k (lo3 op)] := by
  rw [layoutAddress, if_pos h, lo3_eq]

theorem destB_reg {op : Desc} (h : isReg op = true) (rip : Code) : destB rip op = hi1 op := by
  have hm : isMem op = false := by simpa [isReg_eq] using h
  simp [destB, hm, hi1]

/-- The REX bits of a register pair on clear flags are the registers' (R192, R193). -/
theorem pairFlags_reg {f : Flags} (hr : f.r = false) (hb : f.b = false) (rip : Code) {dst : Desc}
    (h : isReg dst = true) (r : Desc) :
    (pairFlags rip f dst r).r = hi1 r ∧ (pairFlags rip f dst r).b = hi1 dst := by
  simp [pairFlags, hr, hb, destB_reg h, hi1]

/-- The bytes of a register pair hold both codes: the low bits in the ModRM byte, the high bits in the REX byte. -/
theorem Job.pair_regCodes {j j' : Job} {dst r dst' r' : Desc} (hdst : isReg dst = true) (hdst' : isReg dst' = true)
    (hrecord : j.record = j'.record) (haddr : j.req.addr32 = j'.req.addr32) (hseg : j.req.seg = j'.req.seg)
    (hr : j.flags.r = false) (hb : j.flags.b = false) (hr' : j'.flags.r = false) (hb' : j'.flags.b = false)
    (h : j.pair dst r = j'.pair dst' r') : regCode dst = regCode dst' ∧ regCode r = regCode r' := by
  have hprefixes : layoutPrefixes j.req = layoutPrefixes j'.req := by rw [layoutPrefixes, layoutPrefixes, haddr, hseg]
  rw [Job.pair, Job.pair, layoutAddress_reg hdst, layoutAddress_reg hdst', Job.head, Job.head, hprefixes, hrecord,
    ← lo3_eq, ← lo3_eq] at h
  obtain ⟨hhead, hmodrm⟩ := List.append_inj' h rfl
  obtain ⟨hR, hB⟩ := layoutOpcode_rexBits (List.append_cancel_left hhead)
  rw [(pairFlags_reg hr hb _ hdst r).1, (pairFlags_reg hr' hb' _ hdst' r').1] at hR
  rw [(pairFlags_reg hr hb _ hdst r).2, (pairFlags_reg hr' hb' _ hdst' r').2] at hB
  have hbyte := List.singleton_injective hmodrm
  obtain ⟨-, hreg, hrm⟩ := pattern233_bits 3 (lo3 r) (lo3 dst)
  obtain ⟨-, hreg', hrm'⟩ := pattern233_bits 3 (lo3 r') (lo3 dst')
  exact ⟨regCode_eq_of_parts (by rw [← hrm, hbyte, hrm']) hB, regCode_eq_of_parts (by rw [← hreg, hbyte, hreg']) hR⟩

/-- Two pairs whose transactions succeed, move the cursor as far and leave the same bytes have the same closed form. -/
theorem pair_eq_of_success {s s' t t' : State} {dst r dst' r' : Desc}
    (h : runBody s (emitModrm s dst (.regOp r)) = .next t) (hok : t.ok = true)
    (h' : runBody s' (emitModrm s' dst' (.regOp r')) = .next t') (hok' : t'.ok = true)
    (hcur : t.cur - s.work.cur0 = t'.cur - s'.work.cur0)
    (hbuf : ∀ k : Nat, k < (t.cur - s.work.cur0).toNat →
      t.buf.read (s.work.cur0 + BitVec.ofNat 64 k).toNat = t'.buf.read (s'.work.cur0 + BitVec.ofNat 64 k).toNat) :
    s.job.pair dst r = s'.job.pair dst' r' := by
  obtain rfl := (Emits.pair s dst r).of_success h hok
  obtain rfl := (Emits.pair s' dst' r').of_success h' hok'
  exact bytes_eq_of_commit_eq ((Job.pair_length_le _ _ _).trans (by decide))
    ((Job.pair_length_le _ _ _).trans (by decide)) hcur hbuf

/-- Settles O44: in either format the buffer holds the bytes of a pair, with the operands' roles exchanged in RM. -/
theorem registerPairsAreRecovered : Obligations.RegisterPairsAreRecovered := by
  intro s s' t t' i hi h0 h1 h0' h1' hrecord haddr hseg hr hb hr' hb' h hok h' hok' hcur hbuf
  rcases hi with rfl | rfl
  · have hbytes : s.job.pair s.work.req.op0 s.work.req.op1 = s'.job.pair s'.work.req.op0 s'.work.req.op1 :=
      pair_eq_of_success h hok h' hok' hcur hbuf
    exact Job.pair_regCodes h0 h0' hrecord haddr hseg hr hb hr' hb' hbytes
  · have hbytes : s.job.pair s.work.req.op1 s.work.req.op0 = s'.job.pair s'.work.req.op1 s'.work.req.op0 :=
      pair_eq_of_success h hok h' hok' hcur hbuf
    exact (Job.pair_regCodes h1 h1' hrecord haddr hseg hr hb hr' hb' hbytes).symm

end Sys2Proof.Machine

/-! PROOFS. The operand descriptor (R100 to R103, R108 to R110): the two register families as numbers, and the base kinds in
the order of R109. -/

namespace Sys2Proof.Machine

/-! ### Register descriptors -/

/-- The GPL family runs upwards from 0x100 (R24). -/
theorem gplDesc_toNat (i : BitVec 4) : (gplDesc i).toNat = 0x100 + i.toNat := by
  have hi := i.isLt
  simp only [gplDesc, BitVec.toNat_add, BitVec.toNat_setWidth, BitVec.reduceToNat]
  omega

/-- The GPH family runs upwards from 0x204 (R25). -/
theorem gphDesc_toNat (j : BitVec 2) : (gphDesc j).toNat = 0x204 + j.toNat := by
  have hj := j.isLt
  simp only [gphDesc, BitVec.toNat_add, BitVec.toNat_setWidth, BitVec.reduceToNat]
  omega

theorem isGpl_gplDesc (i : BitVec 4) : isGpl (gplDesc i) = true := by
  rw [isGpl_iff, gplDesc_toNat]
  omega

theorem regCode_gplDesc (i : BitVec 4) : regCode (gplDesc i) = i := by
  rw [← BitVec.toNat_inj, regCode_toNat, gplDesc_toNat]
  omega

theorem isGph_gphDesc (j : BitVec 2) : isGph (gphDesc j) = true := by
  rw [isGph_iff, HighByte, gphDesc_toNat]
  omega

theorem regCode_gphDesc_toNat (j : BitVec 2) : (regCode (gphDesc j)).toNat = 4 + j.toNat := by
  rw [regCode_toNat, gphDesc_toNat]
  omega

/-- Settles O5: each predicate is a range or a remainder of the descriptor's number, where the two families lie. -/
theorem descriptorPredicates : Obligations.DescriptorPredicates :=
  ⟨fun op => by rw [isReg_eq, Bool.not_not], isMem_iff, isGpl_iff, isGph_iff, isRex8Gpl_iff,
    fun op => ⟨regCode_toNat op, lo3_toNat op, hi1_iff op⟩,
    fun i => ⟨isGpl_gplDesc i, regCode_gplDesc i⟩,
    fun j => ⟨isGph_gphDesc j, regCode_gphDesc_toNat j⟩⟩

/-! ### Base kinds -/

section
variable {rip c : Code}

theorem baseKind_of_zero (h0 : c = 0) : baseKind rip c = .noBase := if_pos h0

theorem baseKind_of_eq_sentinel (h0 : c ≠ 0) (hrip : c = rip) : baseKind rip c = .ripRel := by
  rw [baseKind, if_neg h0, if_pos hrip]

theorem baseKind_of_gpl (h0 : c ≠ 0) (hrip : c ≠ rip) (hgpl : codeIsGpl c = true) : baseKind rip c = .gplBase :=
  (baseKind_gpl_iff rip c).2 ⟨h0, hrip, (codeIsGpl_iff c).1 hgpl⟩

theorem baseKind_of_not_gpl (h0 : c ≠ 0) (hrip : c ≠ rip) (hgpl : codeIsGpl c = false) : baseKind rip c = .badBase := by
  rw [baseKind, if_neg h0, if_neg hrip, hgpl, if_neg Bool.false_ne_true]

/-- The absent base is no GPL register. -/
theorem ne_zero_of_codeIsGpl (hgpl : codeIsGpl c = true) : c ≠ 0 := by
  rintro rfl
  exact absurd hgpl (by decide)

end

/-- D18 keeps the sentinel out of the GPL codes. -/
theorem codeIsGpl_ripSentinel {p : Params} (h : p.wf) : codeIsGpl p.ripSentinel = false := by
  obtain ⟨-, hgpl, -⟩ := h
  rwa [← codeIsGpl_iff, Bool.not_eq_true] at hgpl

/-- Settles O6: one case per line of R109; with D18 a GPL code is neither absent nor the sentinel. -/
theorem baseCodeClassification : Obligations.BaseCodeClassification := by
  refine ⟨codeIsGpl_iff, fun c => ⟨codeLo3_toNat c, codeHi1_iff c⟩, fun rip c =>
    ⟨baseKind_of_zero, baseKind_of_eq_sentinel, baseKind_of_gpl, baseKind_of_not_gpl⟩, fun p hwf => ?_⟩
  have hsentinel := codeIsGpl_ripSentinel hwf
  obtain ⟨hzero, -, -⟩ := hwf
  refine ⟨baseKind_of_eq_sentinel hzero rfl, hsentinel, fun c hgpl => ?_⟩
  have hne : c ≠ p.ripSentinel := by
    rintro rfl
    exact absurd hgpl (by simp [hsentinel])
  exact baseKind_of_gpl (ne_zero_of_codeIsGpl hgpl) hne hgpl

end Sys2Proof.Machine

/-! PROOFS. Immediates and the relative displacement (R150 to R153, R252, R281): the fit check in its two forms, what makes a
format fail, and where the displacement of format D leads. -/

namespace Sys2Proof.Machine

/-! ### The fit check (R150) -/

/-- Settles O7: the two forms are laws of the fit check, and at width 8 sign extension changes nothing. -/
theorem fitCheckIsSignedRange : Obligations.FitCheckIsSignedRange := by
  refine ⟨fun v w hw => ?_, fun v => (fits_iff_sextBytes_eq v 8).2 (sextBytes_eight v), by decide⟩
  have hlegal : LegalWidth w := hw.imp_right (Or.imp_right .inl)
  exact ⟨fits_iff_sextBytes_eq v w, fits_iff v w hlegal⟩

/-! ### Causes of failure (R281) -/

/-- A memory descriptor is no register descriptor (R100). -/
theorem not_isReg_of_isMem {op : Desc} (h : isMem op = true) : ¬ isReg op = true := by
  simp [isReg_eq, h]

/-- A memory descriptor cannot stand for the register of a pair (R191). -/
theorem Job.not_pairLegal_of_isMem (j : Job) (dst : Desc) {r : Desc} (h : isMem r = true) : ¬ j.PairLegal dst r :=
  fun ⟨hreg, _⟩ => not_isReg_of_isMem h hreg

/-- A memory descriptor cannot be folded into the opcode (R170). -/
theorem Job.not_regLegal_of_isMem (j : Job) {r : Desc} (h : isMem r = true) : ¬ j.RegLegal r :=
  fun ⟨hreg, _⟩ => not_isReg_of_isMem h hreg

namespace Emits

variable {s t : State} {body : Except EncodeError (List Byte)} {P : Prop} {S : List Byte} (h : Emits s body P S)
include h

/-- A body that fails alone fails with an immediate after it. -/
theorem fail_imm_of_not (hP : ¬ P) (v : BitVec 64) (w : Nat) : runBody s (thenImm body v w) = .next s.fail :=
  (h.imm v w).fail (mt And.left hP)

/-- Any body fails with an immediate that cannot be written (R151). -/
theorem fail_imm_of_not_immLegal {v : BitVec 64} {w : Nat} (hi : ¬ ImmLegal v w) :
    runBody s (thenImm body v w) = .next s.fail :=
  (h.imm v w).fail (mt And.right hi)

/-- Only a body whose condition holds answers success. -/
theorem cond_of_success (hrun : runBody s body = .next t) (hok : t.ok = true) : P := by
  by_contra hP
  obtain rfl := Host.Outcome.next.inj (hrun.symm.trans (h.fail hP))
  cases hok

end Emits

/-- Settles O26: a format commits exactly under its condition, and each cause contradicts one part of it. -/
theorem missingConstantsKindsAndWideImmediatesFail : Obligations.MissingConstantsKindsAndWideImmediatesFail := by
  intro s
  refine ⟨fun hnone => ?constant, fun hmem => ?memOp1, fun hmem => ?memOp0, fun hi => ?immOp0, fun hi => ?immOp1,
    fun hi => ?immOp2, (Emits.rel s).fail⟩
  case constant =>
    have hlegal : ¬ (s.work.record.regc ≠ none ∧ s.job.SoloLegal s.work.req.op0) := fun ⟨hsome, _⟩ => hsome hnone
    exact ⟨(Emits.const s _).fail hlegal, (Emits.const s _).fail_imm_of_not hlegal _ _⟩
  case memOp1 =>
    have hpair := s.job.not_pairLegal_of_isMem s.work.req.op0 hmem
    exact ⟨(Emits.pair s _ _).fail hpair, (Emits.pair s _ _).fail_imm_of_not hpair _ _,
      (Emits.regop s _).fail (s.job.not_regLegal_of_isMem hmem)⟩
  case memOp0 =>
    have hpair := s.job.not_pairLegal_of_isMem s.work.req.op1 hmem
    have hreg := s.job.not_regLegal_of_isMem hmem
    exact ⟨(Emits.pair s _ _).fail hpair, (Emits.pair s _ _).fail_imm_of_not hpair _ _,
      (Emits.regop s _).fail hreg, (Emits.regop s _).fail_imm_of_not hreg _ _⟩
  case immOp0 => exact (Emits.opc s).fail_imm_of_not_immLegal hi
  case immOp1 =>
    exact ⟨(Emits.opc s).fail_imm_of_not_immLegal hi, (Emits.const s _).fail_imm_of_not_immLegal hi,
      (Emits.regop s _).fail_imm_of_not_immLegal hi⟩
  case immOp2 => exact ⟨(Emits.pair s _ _).fail_imm_of_not_immLegal hi, (Emits.pair s _ _).fail_imm_of_not_immLegal hi⟩

/-! ### The relative displacement (R153, R252) -/

/-- An immediate that can be written is the sign extension of its own field (R150). -/
theorem sextBytes_leValue_le_of_immLegal {v : BitVec 64} {w : Nat} (h : ImmLegal v w) :
    sextBytes (leValue (le v w)) w = v :=
  let ⟨hwidth, hrange⟩ := h
  (sextBytes_leValue_le v w).trans ((fits_iff_sextBytes_eq v w).1 ((fits_iff v w hwidth).2 hrange))

/-- From the end of the instruction the displacement leads to the target, modulo 2^64 (R153). -/
theorem Job.end_add_rel {j : Job} (h : j.req.op0 ≠ j.jmp) :
    j.cur0 + BitVec.ofNat 64 ((j.head j.flags).length + j.record.immsz) + j.rel = j.req.op0 := by
  rw [Job.rel, layoutRel, if_neg h, add_sub_cancel]

/-- The sentinel's displacement is 0, wherever the instruction stands (R153, D19). -/
theorem Job.rel_of_sentinel {j : Job} (h : j.req.op0 = j.jmp) : j.rel = 0 := if_pos h

/-- Settles O42: a success commits a legal displacement, which its field gives back. -/
theorem relativeTargetIsReached : Obligations.RelativeTargetIsReached := by
  intro s t hexec hok htarget
  have hlegal := (Emits.rel s).cond_of_success hexec hok
  obtain rfl := (Emits.rel s).of_success hexec hok
  refine ⟨s.job.rel, rfl, ?_⟩
  rw [sextBytes_leValue_le_of_immLegal hlegal, State.commit_cur, List.length_append, le_length]
  exact Job.end_add_rel (j := s.job) htarget

/-- Zero fits every legal width. -/
theorem immLegal_zero {w : Nat} (hw : LegalWidth w) : ImmLegal 0 w :=
  ⟨hw, by rcases hw with rfl | rfl | rfl | rfl <;> decide⟩

/-- The field of 0 is zero bytes (R44). -/
theorem le_zero_eq_replicate (n : Nat) : le 0 n = List.replicate n 0 := by
  induction n with
  | zero => rfl
  | succ n ih =>
    calc le 0 (n + 1)
      _ = 0 :: le 0 n := rfl
      _ = List.replicate (n + 1) 0 := by rw [ih, List.replicate_succ]

/-- Settles O43: the displacement is 0, which is legal at every legal width and has zero bytes. -/
theorem sentinelEncodesZero : Obligations.SentinelEncodesZero := by
  intro s hsentinel hwidth
  have hrel : s.job.rel = 0 := Job.rel_of_sentinel (j := s.job) hsentinel
  have hcommit := (Emits.rel s).commit (hrel ▸ immLegal_zero hwidth)
  rw [hrel, le_zero_eq_replicate] at hcommit
  exact hcommit

end Sys2Proof.Machine

/-! PROOFS. Legacy high bytes and REX (R172, R195): what legality says of an encoded high byte, for each of the three operand
forms. -/

namespace Sys2Proof.Machine

/-- A high byte in a list of operands that do not clash calls for no REX byte (R74). -/
theorem NoClash.not_anyRex {f : Flags} {ops : List Desc} {op : Desc} (h : NoClash f ops) (hop : op ∈ ops)
    (hb : HighByte op) : ¬ AnyRex f :=
  fun hrex => h hrex op hop hb

section
variable {j : Job} {dst r : Desc}

/-- A legal pair with a high byte among its two operands has no REX byte (R195). -/
theorem Job.PairLegal.not_anyRex (h : j.PairLegal dst r) (hb : HighByte dst ∨ HighByte r) :
    ¬ AnyRex (pairFlags j.rip j.flags dst r) := by
  obtain ⟨-, -, hclash⟩ := h
  rcases hb with hdst | hr
  · exact NoClash.not_anyRex hclash (by simp) hdst
  · exact NoClash.not_anyRex hclash (by simp) hr

/-- A legal high-byte destination beside a reg-field constant has no REX byte (R195). -/
theorem Job.SoloLegal.not_anyRex (h : j.SoloLegal dst) (hb : HighByte dst) :
    ¬ AnyRex (soloFlags j.rip j.flags dst) :=
  let ⟨_, hclash⟩ := h
  NoClash.not_anyRex hclash (List.mem_singleton_self dst) hb

/-- A legal high byte in the opcode has no REX byte (R172). -/
theorem Job.RegLegal.not_anyRex (h : j.RegLegal r) (hb : HighByte r) : ¬ AnyRex (opcFlags j.flags r) :=
  let ⟨_, hclash⟩ := h
  NoClash.not_anyRex hclash (List.mem_singleton_self r) hb

end

/-- Settles O41: each of the nine formats succeeds only where its register operands are legal, with or without an immediate
after them, and legality keeps high bytes away from REX. -/
theorem highBytesNeverMeetRex : Obligations.HighBytesNeverMeetRex := by
  intro s t i hexec hok
  refine ⟨fun dst r hi => ?pair, fun hi => ?solo, fun r hi => ?opcode⟩
  case pair =>
    have hlegal : s.job.PairLegal dst r := by
      rcases hi with ⟨rfl | rfl, rfl, rfl⟩ | ⟨rfl | rfl, rfl, rfl⟩
      · exact (Emits.pair s _ _).cond_of_success hexec hok
      · exact (((Emits.pair s _ _).imm _ _).cond_of_success hexec hok).left
      · exact (Emits.pair s _ _).cond_of_success hexec hok
      · exact (((Emits.pair s _ _).imm _ _).cond_of_success hexec hok).left
    exact hlegal.not_anyRex
  case solo =>
    have hlegal : s.work.record.regc ≠ none ∧ s.job.SoloLegal s.work.req.op0 := by
      rcases hi with rfl | rfl
      · exact (Emits.const s _).cond_of_success hexec hok
      · exact (((Emits.const s _).imm _ _).cond_of_success hexec hok).left
    exact hlegal.right.not_anyRex
  case opcode =>
    have hlegal : s.job.RegLegal r := by
      rcases hi with ⟨rfl | rfl, rfl⟩ | ⟨rfl, rfl⟩
      · exact (Emits.regop s _).cond_of_success hexec hok
      · exact (((Emits.regop s _).imm _ _).cond_of_success hexec hok).left
      · exact (Emits.regop s _).cond_of_success hexec hok
    exact hlegal.not_anyRex

end Sys2Proof.Machine

/-! PROOFS. Displacement sizing of an ordinary base (R205, R206, conflict C2). -/

namespace Sys2Proof.Machine

/-- Moving the base into the SIB keeps `mod` (R207). -/
@[simp] theorem relocate_mod (ix : IndexForm) (bs : BaseForm) : (relocate ix bs).mod = bs.mod := by
  unfold relocate; split <;> rfl

/-- Moving the base into the SIB keeps the forced displacement (R207). -/
@[simp] theorem relocate_force32 (ix : IndexForm) (bs : BaseForm) : (relocate ix bs).force32 = bs.force32 := by
  unfold relocate; split <;> rfl

/-- An ordinary base is sized by its low code bits and its displacement, with or without a SIB (R205). -/
theorem resolve_gplBase {rip : Code} {op : Desc} {fm : Form} (hm : isMem op = true)
    (hk : baseKind rip (memBase op) = .gplBase) (h : resolve rip op = .ok fm) :
    fm.mod = modFor (codeLo3 (memBase op)) (memDisp op) ∧ fm.force32 = false := by
  obtain ⟨hzero, hrip, -⟩ := (baseKind_gpl_iff rip (memBase op)).1 hk
  obtain ⟨ix, -, -, ⟨h0, -⟩ | ⟨-, heq, -⟩ | ⟨-, -, rfl⟩⟩ := resolve_mem_cases hm h
  · exact absurd h0 hzero
  · exact absurd heq hrip
  · exact ⟨relocate_mod .., relocate_force32 ..⟩

section
variable {low : BitVec 3} {d : BitVec 64}

/-- `mod` 0, exactly without displacement and with low code bits other than 5 (R205, R206). -/
theorem modFor_eq_zero_iff : modFor low d = 0 ↔ d = 0 ∧ low ≠ 5 := by
  rw [modFor]
  split
  · next hnone => exact iff_of_true rfl hnone
  · next hsome => exact iff_of_false (by split <;> decide) hsome

/-- `mod` 2, exactly for a displacement that is no signed byte: 0 is one, so the test for 0 takes nothing away (R205). -/
theorem modFor_eq_two_iff : modFor low d = 2 ↔ ¬ Short d := by
  rw [modFor_eq, layoutMod]
  split
  · next hshort => exact iff_of_false (by split <;> decide) (not_not.2 hshort)
  · next hlong => exact iff_of_true rfl hlong

/-- `mod` 1, exactly for the other signed bytes: a displacement of 0 included when the low code bits are 5 (R206, C2). -/
theorem modFor_eq_one_iff : modFor low d = 1 ↔ Short d ∧ ¬ (d = 0 ∧ low ≠ 5) := by
  rw [modFor_eq, layoutMod]
  split
  · next hshort =>
    split
    · next hnone => exact iff_of_false (by decide) fun h => h.2 hnone
    · next hsome => exact iff_of_true rfl ⟨hshort, hsome⟩
  · next hlong => exact iff_of_false (by decide) fun h => hlong h.1

end

/-- Settles O40: an ordinary base takes its `mod` from the sizing rule, whose three values are told apart by the
displacement and the low code bits. -/
theorem displacementSizingOfBases : Obligations.DisplacementSizingOfBases := by
  intro rip op fm hm hk h
  obtain ⟨hmod, hforce⟩ := resolve_gplBase hm hk h
  rw [hmod]
  exact ⟨modFor_eq_zero_iff, modFor_eq_one_iff, modFor_eq_two_iff, hforce⟩

end Sys2Proof.Machine

/-! PROOFS. The format dispatcher (R231, R232, R239 to R252): each format's two outcomes, the slots it reads, and the two
transactions that fail before any emitter runs. -/

namespace Sys2Proof.Machine

/-! ### The outcomes of the formats -/

/-- Settles O17: the opcode is always emitted. -/
theorem formatNpEmitsOpcode : Obligations.FormatNpEmitsOpcode :=
  fun s => (Emits.opc s).commit trivial

/-- With its reg-field constant the record is well formed, and the destination alone decides (R233). -/
theorem Emits.const_some {s : State} {k : BitVec 3} (hk : s.work.record.regc = some k) (dst : Desc) :
    Emits s (emitConst s dst) (s.job.SoloLegal dst) (s.job.solo dst k) := by
  have h := (Emits.const s dst).congr (and_iff_right (by simp [hk]))
  rwa [hk] at h

/-- Settles O18: with the constant the destination decides, and each premise of a failure contradicts one part of the
format's condition. -/
theorem formatsMAndMiEmitConstantForm : Obligations.FormatsMAndMiEmitConstantForm := by
  intro s
  refine ⟨fun k hk hlegal => ?emitted, fun hnot => ?failedM, fun hnot => ?failedMi⟩
  case emitted =>
    have hconst := Emits.const_some hk s.work.req.op0
    exact ⟨hconst.commit hlegal, fun hi => (hconst.imm _ _).commit ⟨hlegal, hi⟩⟩
  case failedM =>
    refine (Emits.const s _).fail fun ⟨hsome, hlegal⟩ => ?_
    rcases hnot with hnone | hillegal
    · exact hsome hnone
    · exact hillegal hlegal
  case failedMi =>
    refine ((Emits.const s _).imm _ _).fail fun ⟨⟨hsome, hlegal⟩, hi⟩ => ?_
    rcases hnot with hnone | hillegal | hwide
    · exact hsome hnone
    · exact hillegal hlegal
    · exact hwide hi

/-- Settles O19: both formats emit a pair, RM with the two operands exchanged. -/
theorem formatsMrAndRmEmitPairForm : Obligations.FormatsMrAndRmEmitPairForm :=
  fun s =>
    have hmr := Emits.pair s s.work.req.op0 s.work.req.op1
    have hrm := Emits.pair s s.work.req.op1 s.work.req.op0
    ⟨hmr.commit, hmr.fail, hrm.commit, hrm.fail⟩

/-- Settles O20: the pairs of MR and RM with the immediate of `op2` after them. -/
theorem formatsMriAndRmiEmitPairThenImmediate : Obligations.FormatsMriAndRmiEmitPairThenImmediate :=
  fun s =>
    have hmri := (Emits.pair s s.work.req.op0 s.work.req.op1).imm s.work.req.op2 s.work.record.immsz
    have hrmi := (Emits.pair s s.work.req.op1 s.work.req.op0).imm s.work.req.op2 s.work.record.immsz
    ⟨fun hlegal hi => hmri.commit ⟨hlegal, hi⟩, hmri.fail, fun hlegal hi => hrmi.commit ⟨hlegal, hi⟩, hrmi.fail⟩

/-- Settles O21: the opcode is always emitted, so the immediate decides. -/
theorem formatsIAndAiEmitOpcodeThenImmediate : Obligations.FormatsIAndAiEmitOpcodeThenImmediate :=
  fun s =>
    have hi := Emits.opcImm s s.work.req.op0 s.work.record.immsz
    have hai := Emits.opcImm s s.work.req.op1 s.work.record.immsz
    ⟨hi.commit, hi.fail, hai.commit, hai.fail⟩

/-- Settles O22: O and AO fold one register into the opcode, and OI is O with the immediate of `op1` after it. -/
theorem formatsOAoOiFoldRegister : Obligations.FormatsOAoOiFoldRegister :=
  fun s =>
    have ho := Emits.regop s s.work.req.op0
    have hao := Emits.regop s s.work.req.op1
    have hoi := ho.imm s.work.req.op1 s.work.record.immsz
    ⟨ho.commit, ho.fail, hao.commit, hao.fail, fun hlegal hi => hoi.commit ⟨hlegal, hi⟩, hoi.fail⟩

/-- Settles O23: the displacement is an immediate like any other, once it is computed. -/
theorem formatDEmitsRelativeDisplacement : Obligations.FormatDEmitsRelativeDisplacement :=
  fun s => ⟨(Emits.rel s).commit, (Emits.rel s).fail⟩

/-! ### The slots a format reads (R239) -/

/-- The transaction's request exchanged for another, the flags and everything else given. -/
def State.withReq (s : State) (q : Req) : State := { s with work := { s.work with req := q } }

section
variable {s : State} {q : Req}

/-- The prefixes depend on `addr32` and `seg` alone (R236, R237). -/
theorem prefixBytes_congr {q' : Req} (haddr : q.addr32 = q'.addr32) (hseg : q.seg = q'.seg) :
    prefixBytes q = prefixBytes q' := by
  simp only [prefixBytes, addr32Line, segLine, haddr, hseg]

/-- Around equal prefixes, equal bodies have the same outcome: commit and failure do not look at the request (R238). -/
theorem runBody_withReq (hpre : prefixBytes q = prefixBytes s.work.req) {body body' : Except EncodeError (List Byte)}
    (hbody : body' = body) : runBody (s.withReq q) body' = runBody s body := by
  subst hbody
  cases body' with
  | error e => rfl
  | ok bs => exact congrArg (fun pre => Host.Outcome.next (s.commit (pre ++ bs))) hpre

/-- The body of format D reads the target and the length of the prefixes (R252). -/
theorem relBody_withReq (hpre : prefixBytes q = prefixBytes s.work.req) (h0 : q.op0 = s.work.req.op0) :
    relBody (s.withReq q) = relBody s := by
  simp only [relBody, State.withReq, hpre, h0]

end

/-- Settles O27: the bodies of the formats are equal where the slots they read are. -/
theorem unconsumedSlotsAreNotRead : Obligations.UnconsumedSlotsAreNotRead := by
  intro s q haddr hseg
  have hpre := prefixBytes_congr haddr hseg
  have hrun {body body' : Except EncodeError (List Byte)} (hbody : body' = body) :
      runBody (s.withReq q) body' = runBody s body := runBody_withReq hpre hbody
  have himm {body body' : Except EncodeError (List Byte)} {v v' : BitVec 64} (hbody : body' = body) (hv : v' = v) :
      thenImm body' v' s.work.record.immsz = thenImm body v s.work.record.immsz := by rw [hbody, hv]
  have hpair {dst dst' r r' : Desc} (hdst : dst' = dst) (hr : r' = r) :
      emitModrm s dst' (.regOp r') = emitModrm s dst (.regOp r) := by rw [hdst, hr]
  refine ⟨hrun (body := .ok (opcEmit s.work.record s.work.flags)) rfl, fun h0 => ?op0, fun h1 => ?op1,
    fun h0 h1 => ?op01, fun h0 h1 h2 => ?op012⟩
  case op0 =>
    exact ⟨hrun (congrArg (emitConst s) h0), hrun (himm rfl h0), hrun (congrArg (regopEmit _ _) h0),
      hrun (relBody_withReq hpre h0)⟩
  case op1 => exact ⟨hrun (himm rfl h1), hrun (congrArg (regopEmit _ _) h1)⟩
  case op01 =>
    exact ⟨hrun (himm (congrArg (emitConst s) h0) h1), hrun (hpair h0 h1), hrun (hpair h1 h0),
      hrun (himm (congrArg (regopEmit _ _) h0) h1)⟩
  case op012 => exact ⟨hrun (himm (hpair h0 h1) h2), hrun (himm (hpair h1 h0) h2)⟩

/-! ### Transactions that fail before any emitter runs -/

/-- Settles O24: the format has no body, and what a failure leaves alone is a law of the outcome. -/
theorem unrealizedFormatsFail : Obligations.UnrealizedFormatsFail :=
  fun s _ => ⟨s.fail, (Emits.unrealized s).fail id, rfl, rfl, fun _ => fail_read_outside, rfl, rfl, rfl⟩

/-- An admitted request for a mnemonic without a record fails at the cursor (R231). -/
theorem step_request_unknown {s : State} {q : Req} {rest : List Input} (h : s.inbox = .request q :: rest)
    (ha : s.Admitted) (hnone : tableRecord s.params.table q.mnem = none) :
    step s = .next (s.take rest).quiesce.fail :=
  calc step s
    _ = openTransaction q (s.take rest) runTag := step_of_inbox h
    _ = .next (s.take rest).quiesce.fail :=
      openTransaction_none (s := s.take rest) runTag ((passes_iff s).2 ha) ((lookup_eq s.params q.mnem).trans hnone)

/-- Settles O30: the failure is taken from the idle registers, whose captured cursor is the cursor. -/
theorem unknownMnemonicFails : Obligations.UnknownMnemonicFails := by
  intro s q rest h ha hnone
  exact ⟨(s.take rest).quiesce.fail, step_request_unknown h ha hnone, State.fail_ok _, State.fail_cur _,
    fun _ hout => fail_read_outside (s := (s.take rest).quiesce) hout, State.fail_inbox _⟩

end Sys2Proof.Machine

/-! PROOFS. The two answers of a request (R281, R282, R284): every admitted request ends its transaction, and a failed one
leaves no trace but the bytes of its region. -/

namespace Sys2Proof.Machine

/-! ### The end of a transaction -/

section
variable {s t : State} {q : Req} {rest : List Input} (hq : s.inbox = .request q :: rest) (h : step s = .next t)
include hq h

/-- A request takes itself from the queue and writes neither the configuration nor the surroundings (R21, R51). -/
theorem step_request_keeps : t.params = s.params ∧ t.env = s.env ∧ t.inbox = rest := by
  obtain ⟨htail, -, henv⟩ := inputsAreTakenInOrder s t h
  refine ⟨configurationIsNeverWritten s t h, ?_, by rw [htail, hq, List.tail_cons]⟩
  rcases henv with henv | ⟨e, rest', hset, -⟩
  · exact henv
  · rw [hq] at hset
    cases hset

/-- Both answers discard the working registers (R238, R284). -/
theorem step_request_work : t.work = Work.idle t.cur := by
  cases hok : t.ok with
  | true =>
    obtain ⟨r, -, rfl⟩ := step_request_success hq h hok
    rfl
  | false =>
    obtain ⟨u, rfl, -⟩ := step_request_failure hq h hok
    rfl

/-- The response says success exactly when the request commits (R281). -/
theorem step_request_ok_iff : t.ok = true ↔ ∃ r, s.Commits q r := by
  constructor
  · intro hok
    obtain ⟨r, hcommits, -⟩ := step_request_success hq h hok
    exact ⟨r, hcommits⟩
  · rintro ⟨r, hcommits⟩
    obtain rfl := Host.Outcome.next.inj (h.symm.trans (step_request_of_commits hq hcommits))
    rfl

end

/-- Settles O33: an admitted request passes the three tests, and a request that passes them answers. -/
theorem admittedRequestsAlwaysAnswer : Obligations.AdmittedRequestsAlwaysAnswer := by
  intro s q rest hq ha
  obtain ⟨t, h⟩ := step_request_next hq ((passes_iff s).2 ha)
  obtain ⟨-, -, hinbox⟩ := step_request_keeps hq h
  exact ⟨t, h, hinbox, step_request_work hq h⟩

/-! ### What a failure leaves behind -/

/-- Two states that differ, in all a later request can depend on or show, at most in the 22 bytes at `c`: the free values
of a failure there (R43). The response flag and the working registers are left out, since a transaction sets them anew
(R23, R311), and so is the counter of free values (log 9). -/
structure State.AgreeBeyond (s t : State) (c : Addr) : Prop where
  cur : s.cur = t.cur
  params : s.params = t.params
  env : s.env = t.env
  inbox : s.inbox = t.inbox
  buf : ∀ a, Outside a c 22 → s.buf.read a = t.buf.read a

/-- After a failed request the state is the one without it, up to the 22 bytes at the cursor (R43, R282). -/
theorem step_request_failure_agreeBeyond {s t : State} {q : Req} {rest : List Input} (hq : s.inbox = .request q :: rest)
    (h : step s = .next t) (hok : t.ok = false) : t.AgreeBeyond (s.take rest) s.cur := by
  obtain ⟨hcur, -, hbuf⟩ := failureRestoresCursorAndFreesRegion s t q rest hq h hok
  obtain ⟨hparams, henv, hinbox⟩ := step_request_keeps hq h
  exact ⟨hcur, hparams, henv, hinbox, hbuf⟩

namespace State.AgreeBeyond

variable {s t u v : State} {c : Addr} {q : Req} {rest : List Input}

theorem jobOf_eq (hst : s.AgreeBeyond t c) (q : Req) (r : Record) : s.jobOf q r = t.jobOf q r := by
  simp only [State.jobOf, hst.cur, hst.params]

/-- Admission, lookup and legality read only what the two states share. -/
theorem commits_iff (hst : s.AgreeBeyond t c) (q : Req) (r : Record) : s.Commits q r ↔ t.Commits q r := by
  simp only [State.Commits, hst.jobOf_eq, hst.cur, hst.params, hst.env]

/-- A request gets the same response from both states. -/
theorem same_ok (hst : s.AgreeBeyond t c) (hq : t.inbox = .request q :: rest) (hu : step s = .next u)
    (hv : step t = .next v) : u.ok = v.ok := by
  rw [Bool.eq_iff_iff, step_request_ok_iff (hst.inbox.trans hq) hu, step_request_ok_iff hq hv]
  exact exists_congr (hst.commits_iff q)

/-- A request that succeeds commits the same bytes from both states. -/
theorem same_commit (hst : s.AgreeBeyond t c) (hq : t.inbox = .request q :: rest) (hu : step s = .next u)
    (hv : step t = .next v) (hok : u.ok = true) :
    ∃ bs : List Byte, bs.length ≤ 22 ∧ u.cur = t.cur + BitVec.ofNat 64 bs.length ∧
      v.cur = t.cur + BitVec.ofNat 64 bs.length ∧
      u.buf = s.buf.writeBytes t.cur bs ∧ v.buf = t.buf.writeBytes t.cur bs := by
  obtain ⟨r, hcommits, rfl⟩ := step_request_success (hst.inbox.trans hq) hu hok
  have hcommits' := (hst.commits_iff q r).1 hcommits
  obtain rfl := Host.Outcome.next.inj (hv.symm.trans (step_request_of_commits hq hcommits'))
  refine ⟨(t.jobOf q r).bytes, hcommits'.bytes_length_le, ?_⟩
  simp [hst.jobOf_eq, hst.cur]

/-- A request at the cursor `c` keeps the agreement. -/
theorem after_request (hst : s.AgreeBeyond t t.cur) (hq : t.inbox = .request q :: rest) (hu : step s = .next u)
    (hv : step t = .next v) : u.AgreeBeyond v t.cur := by
  have hqs := hst.inbox.trans hq
  obtain ⟨hup, hue, hui⟩ := step_request_keeps hqs hu
  obtain ⟨hvp, hve, hvi⟩ := step_request_keeps hq hv
  suffices u.cur = v.cur ∧ ∀ a, Outside a t.cur 22 → u.buf.read a = v.buf.read a by
    obtain ⟨hcur, hbuf⟩ := this
    exact ⟨hcur, by rw [hup, hvp, hst.params], by rw [hue, hve, hst.env], hui.trans hvi.symm, hbuf⟩
  cases hok : u.ok with
  | true =>
    obtain ⟨bs, -, hucur, hvcur, hubuf, hvbuf⟩ := hst.same_commit hq hu hv hok
    refine ⟨hucur.trans hvcur.symm, fun a ha => ?_⟩
    rw [hubuf, hvbuf]
    exact writeBytes_read_congr (hst.buf a ha) t.cur bs
  | false =>
    have hokv := (hst.same_ok hq hu hv).symm.trans hok
    obtain ⟨hucur, -, hubuf⟩ := failureRestoresCursorAndFreesRegion s u q rest hqs hu hok
    obtain ⟨hvcur, -, hvbuf⟩ := failureRestoresCursorAndFreesRegion t v q rest hq hv hokv
    refine ⟨hucur.trans (hst.cur.trans hvcur.symm), fun a ha => ?_⟩
    rw [hubuf a (hst.cur ▸ ha), hvbuf a ha, hst.buf a ha]

/-- A request that succeeds leaves the same bytes between the two cursors from both states, inside the region too. -/
theorem same_committed_bytes (hst : s.AgreeBeyond t c) (hq : t.inbox = .request q :: rest) (hu : step s = .next u)
    (hv : step t = .next v) (hok : u.ok = true) {k : Nat} (hk : t.cur.toNat + k < u.cur.toNat) :
    u.buf.read (t.cur.toNat + k) = v.buf.read (t.cur.toNat + k) := by
  have hwrap := step_request_no_wrap hq hv
  obtain ⟨bs, hlen, hucur, -, hubuf, hvbuf⟩ := hst.same_commit hq hu hv hok
  rw [hucur, addr_toNat (by omega)] at hk
  have hbs : k < bs.length := by omega
  rw [← addr_toNat (c := t.cur) (k := k) (by omega), hubuf, hvbuf, writeBytes_read_inside _ _ _ k hbs (by omega),
    writeBytes_read_inside _ _ _ k hbs (by omega)]

end State.AgreeBeyond

/-- Settles O50: a failure leaves a state that agrees with the one without it beyond its region, and the next request, at
the same cursor, keeps that agreement. -/
theorem failuresAreForgotten : Obligations.FailuresAreForgotten := by
  intro s t q q' rest hq h hok
  obtain ⟨hpasses, -⟩ := step_request_cases hq h
  have hagree := step_request_failure_agreeBeyond hq h hok
  have hq' : (s.take (.request q' :: rest)).inbox = .request q' :: rest := rfl
  obtain ⟨v, hv⟩ := step_request_next hq' hpasses
  obtain ⟨u, hu⟩ := step_request_next (hagree.inbox.trans hq') (by rwa [hagree.env, hagree.cur])
  have hafter := hagree.after_request hq' hu hv
  exact ⟨u, v, hu, hv, hagree.same_ok hq' hu hv, hafter.cur, hafter.params, hafter.env, hafter.inbox,
    hafter.buf, fun huok _ hk => hagree.same_committed_bytes hq' hu hv huok hk⟩

end Sys2Proof.Machine

/-! PROOFS. No value carries over (R23, R311): a transaction writes the working registers and the response before anything
reads them, so what it finds there does not matter. -/

namespace Sys2Proof.Machine

/-- Admission reads only the surroundings and the cursor (R47, R52, R316). -/
theorem whenAdmitted_congr {s t : State} {k : State → Result} (henv : s.env = t.env) (hcur : s.cur = t.cur)
    (hk : k s = k t) : whenAdmitted s k = whenAdmitted t k := by
  simp only [whenAdmitted, henv, hcur, hk]

section
variable (s : State) (w : Work) (b : Bool)

/-- The load at the start of a transaction overwrites every working register and the response (R230 to R235). -/
theorem State.load_forgets (q : Req) (r : Record) : { s with work := w, ok := b }.load q r = s.load q r := rfl

/-- So does the failure on an unknown mnemonic, which starts from the idle registers (R231). -/
theorem State.quiesce_fail_forgets : { s with work := w, ok := b }.quiesce.fail = s.quiesce.fail := rfl

/-- Whatever runs after it, the start of a transaction forgets the registers and the response it finds: both of its
branches overwrite them. -/
theorem openTransaction_forgets (q : Req) (k : Record → State → Result) :
    openTransaction q { s with work := w, ok := b } k = openTransaction q s k := by
  refine whenAdmitted_congr rfl rfl ?_
  cases lookup s.params q.mnem with
  | none => simp only [State.quiesce_fail_forgets]
  | some r => simp only [State.load_forgets]

end

/-- Settles O49: a request is one start of a transaction, which forgets what it finds. -/
theorem nothingCarriesOver : Obligations.NothingCarriesOver := by
  intro s w b q rest hq
  have hq' : { s with work := w, ok := b }.inbox = .request q :: rest := hq
  calc step { s with work := w, ok := b }
    _ = openTransaction q { s.take rest with work := w, ok := b } runTag := step_of_inbox hq'
    _ = openTransaction q (s.take rest) runTag := openTransaction_forgets (s.take rest) w b q runTag
    _ = step s := (step_of_inbox hq).symm

end Sys2Proof.Machine
